-- ==== Sys2Proof/Word.lean ====
section
/-! DEFINITION. The Word and its two readings (00_scope.md R7). -/

namespace Sys2Proof

/-- R7, R10: a Word is 32 bits. -/
abbrev Word := BitVec 32

/-- R7: `u(v)`, the unsigned reading, in `[0, 2^32 - 1]`. -/
def unsignedOf (v : Word) : Int := (v.toNat : Int)

/-- R7: `s(v)`, the two's-complement reading, in `[-2^31, 2^31 - 1]`. -/
def signedOf (v : Word) : Int := v.toInt

/-- R7: `wrap(n)`, the Word `w` with `u(w) = n mod 2^32`, for any integer `n`. -/
def wrap (n : Int) : Word := BitVec.ofInt 32 n

end Sys2Proof
end

