-- ==== Sys2Proof/Syntax.lean ====
section
/-! DEFINITION. The instructions as data: registers, opcodes, the four operand kinds, and one constructor per row of
spec/opcode_table.json (30_encoding.md R58, R60, R61). -/

namespace Sys2Proof

/-- R10, R13: the closed set of register identifiers 0 to 7. Identifiers 8 to 15 exist in the encoding only and never
get past the decoder. -/
abbrev Reg := Fin 8

/-- R60: the 25 opcodes. -/
inductive Opcode where
  | mov | load | store
  | add | sub | and | or | xor | shl | shr | sar | cmp | div
  | jmp | jz | jnz | jc | jnc | jo | jno | js | jns
  | call | ret | halt
  deriving DecidableEq, Repr

/-- R58: the four operand kinds, holding identifiers and values as numbers. -/
inductive Operand where
  | register (r : Reg)
  | immediate (imm : BitVec 16)
  | memoryAddress (addr : BitVec 16)
  | registerIndirect (r : Reg)
  deriving DecidableEq, Repr

/-- R61: one constructor per legal (opcode, shape) form, operand A first where there is one. `Reg` forms take operand B
as a register value, `Imm` forms as an immediate, `Mem` forms as a memory address, `Ind` forms register indirect. -/
inductive Instr where
  | movReg (rd rs : Reg)
  | movImm (rd : Reg) (imm : BitVec 16)
  | loadMem (rd : Reg) (addr : BitVec 16)
  | loadInd (rd rb : Reg)
  | storeMem (rs : Reg) (addr : BitVec 16)
  | storeInd (rs rb : Reg)
  | addReg (rd rs : Reg)
  | addImm (rd : Reg) (imm : BitVec 16)
  | subReg (rd rs : Reg)
  | subImm (rd : Reg) (imm : BitVec 16)
  | andReg (rd rs : Reg)
  | andImm (rd : Reg) (imm : BitVec 16)
  | orReg (rd rs : Reg)
  | orImm (rd : Reg) (imm : BitVec 16)
  | xorReg (rd rs : Reg)
  | xorImm (rd : Reg) (imm : BitVec 16)
  | shlReg (rd rs : Reg)
  | shlImm (rd : Reg) (imm : BitVec 16)
  | shrReg (rd rs : Reg)
  | shrImm (rd : Reg) (imm : BitVec 16)
  | sarReg (rd rs : Reg)
  | sarImm (rd : Reg) (imm : BitVec 16)
  | cmpReg (rd rs : Reg)
  | cmpImm (rd : Reg) (imm : BitVec 16)
  | divReg (rd rs : Reg)
  | divImm (rd : Reg) (imm : BitVec 16)
  | jmpMem (addr : BitVec 16)
  | jmpInd (rb : Reg)
  | jzMem (addr : BitVec 16)
  | jzInd (rb : Reg)
  | jnzMem (addr : BitVec 16)
  | jnzInd (rb : Reg)
  | jcMem (addr : BitVec 16)
  | jcInd (rb : Reg)
  | jncMem (addr : BitVec 16)
  | jncInd (rb : Reg)
  | joMem (addr : BitVec 16)
  | joInd (rb : Reg)
  | jnoMem (addr : BitVec 16)
  | jnoInd (rb : Reg)
  | jsMem (addr : BitVec 16)
  | jsInd (rb : Reg)
  | jnsMem (addr : BitVec 16)
  | jnsInd (rb : Reg)
  | callMem (rl : Reg) (addr : BitVec 16)
  | callInd (rl rb : Reg)
  | ret (rl : Reg)
  | halt
  deriving DecidableEq, Repr

end Sys2Proof
end

