-- ==== Sys2Proof/WellFormed.lean ====
section
/-! DEFINITION. When an opcode with an ordered list of operands (30_encoding.md R58) is an instruction: the declared
shapes of R61, the source's "expected operand arity/shape". A register identifier outside 0 to 7 cannot be written as an
`Operand` at all; the decoder turns it away (R54, R55). -/

namespace Sys2Proof

/-- R52: the shapes operand B may have. -/
inductive Shape where
  | none | register | immediate | memoryAddress | registerIndirect
  deriving DecidableEq, Repr

/-- R58: the kind of an operand. -/
def Operand.shape : Operand → Shape
  | .register _ => .register
  | .immediate _ => .immediate
  | .memoryAddress _ => .memoryAddress
  | .registerIndirect _ => .registerIndirect

/-- R61, `declSA`: whether the opcode has an operand A (always a register, R51). -/
def Opcode.declaredA : Opcode → Bool
  | .mov | .load | .store | .add | .sub | .and | .or | .xor | .shl | .shr | .sar | .cmp | .div | .call | .ret => true
  | .jmp | .jz | .jnz | .jc | .jnc | .jo | .jno | .js | .jns | .halt => false

/-- R61, `declSB`: the shapes the opcode allows for operand B. -/
def Opcode.declaredB : Opcode → List Shape
  | .mov | .add | .sub | .and | .or | .xor | .shl | .shr | .sar | .cmp | .div => [.register, .immediate]
  | .load | .store | .call | .jmp | .jz | .jnz | .jc | .jnc | .jo | .jno | .js | .jns =>
    [.memoryAddress, .registerIndirect]
  | .ret | .halt => [.none]

/-- R61: the operand count is the declared one. -/
def arityOk (o : Opcode) (ops : List Operand) : Bool :=
  ops.length == (if o.declaredA then 1 else 0) + (if o.declaredB = [.none] then 0 else 1)

/-- R51, R61: operand A, where declared, is a register. -/
def operandAOk (o : Opcode) (ops : List Operand) : Bool :=
  !o.declaredA || ops.head?.map Operand.shape == some .register

/-- R61: operand B, where declared, has a declared shape. -/
def operandBOk (o : Opcode) (ops : List Operand) : Bool :=
  o.declaredB = [.none] || o.declaredB.contains ((ops.getLast?.map Operand.shape).getD .none)

/-- R61: the opcode and its operand list are one of the 48 legal forms. -/
def wellFormed (o : Opcode) (ops : List Operand) : Bool :=
  arityOk o ops && operandAOk o ops && operandBOk o ops

end Sys2Proof
end

