-- ==== Sys2Proof/Decode.lean ====
section
/-! DEFINITION. The decoder, total on every Word, and the encoder, both from the field layout and the tables of
30_encoding.md (R50 to R61). -/

namespace Sys2Proof

/-! ## The fields of the one format (R50, R51) -/

def fieldOP (w : Word) : BitVec 8 := w.extractLsb' 24 8
def fieldSB (w : Word) : BitVec 3 := w.extractLsb' 21 3
def fieldSA (w : Word) : BitVec 1 := w.extractLsb' 20 1
def fieldRA (w : Word) : BitVec 4 := w.extractLsb' 16 4
def fieldBV (w : Word) : BitVec 16 := w.extractLsb' 0 16

/-- R50: the Word with the given fields, `OP` highest. -/
def packWord (op : BitVec 8) (sb : BitVec 3) (sa : BitVec 1) (ra : BitVec 4) (bv : BitVec 16) : Word :=
  op ++ sb ++ sa ++ ra ++ bv

/-! ## The opcode map (R60) -/

/-- R60: the assigned value of each opcode. -/
def Opcode.code : Opcode → BitVec 8
  | .mov => 0x01 | .load => 0x02 | .store => 0x03
  | .add => 0x10 | .sub => 0x11 | .and => 0x12 | .or => 0x13 | .xor => 0x14
  | .shl => 0x15 | .shr => 0x16 | .sar => 0x17 | .cmp => 0x18 | .div => 0x19
  | .jmp => 0x20 | .jz => 0x21 | .jnz => 0x22 | .jc => 0x23 | .jnc => 0x24
  | .jo => 0x25 | .jno => 0x26 | .js => 0x27 | .jns => 0x28
  | .call => 0x30 | .ret => 0x31 | .halt => 0xFF

/-- The rows of R60. -/
def opcodeTable : List Opcode :=
  [.mov, .load, .store, .add, .sub, .and, .or, .xor, .shl, .shr, .sar, .cmp, .div] ++
  [.jmp, .jz, .jnz, .jc, .jnc, .jo, .jno, .js, .jns, .call, .ret, .halt]

/-- R59 step 2: the opcode an `OP` field names, if it is one of the 25 assigned values. -/
def opcodeOf (op : BitVec 8) : Option Opcode := opcodeTable.find? fun o => o.code == op

/-! ## The instruction as opcode and operand list (R58) -/

/-- R61: the opcode of each form. -/
def Instr.opcode : Instr → Opcode
  | .movReg _ _ | .movImm _ _ => .mov
  | .loadMem _ _ | .loadInd _ _ => .load
  | .storeMem _ _ | .storeInd _ _ => .store
  | .addReg _ _ | .addImm _ _ => .add
  | .subReg _ _ | .subImm _ _ => .sub
  | .andReg _ _ | .andImm _ _ => .and
  | .orReg _ _ | .orImm _ _ => .or
  | .xorReg _ _ | .xorImm _ _ => .xor
  | .shlReg _ _ | .shlImm _ _ => .shl
  | .shrReg _ _ | .shrImm _ _ => .shr
  | .sarReg _ _ | .sarImm _ _ => .sar
  | .cmpReg _ _ | .cmpImm _ _ => .cmp
  | .divReg _ _ | .divImm _ _ => .div
  | .jmpMem _ | .jmpInd _ => .jmp
  | .jzMem _ | .jzInd _ => .jz
  | .jnzMem _ | .jnzInd _ => .jnz
  | .jcMem _ | .jcInd _ => .jc
  | .jncMem _ | .jncInd _ => .jnc
  | .joMem _ | .joInd _ => .jo
  | .jnoMem _ | .jnoInd _ => .jno
  | .jsMem _ | .jsInd _ => .js
  | .jnsMem _ | .jnsInd _ => .jns
  | .callMem _ _ | .callInd _ _ => .call
  | .ret _ => .ret
  | .halt => .halt

/-- R58: operand A first if there is one, then operand B if there is one. -/
def Instr.operands : Instr → List Operand
  | .movReg d s | .addReg d s | .subReg d s | .andReg d s | .orReg d s | .xorReg d s
  | .shlReg d s | .shrReg d s | .sarReg d s | .cmpReg d s | .divReg d s => [.register d, .register s]
  | .movImm d n | .addImm d n | .subImm d n | .andImm d n | .orImm d n | .xorImm d n
  | .shlImm d n | .shrImm d n | .sarImm d n | .cmpImm d n | .divImm d n => [.register d, .immediate n]
  | .loadMem r a | .storeMem r a | .callMem r a => [.register r, .memoryAddress a]
  | .loadInd r b | .storeInd r b | .callInd r b => [.register r, .registerIndirect b]
  | .jmpMem a | .jzMem a | .jnzMem a | .jcMem a | .jncMem a | .joMem a | .jnoMem a | .jsMem a | .jnsMem a =>
    [.memoryAddress a]
  | .jmpInd b | .jzInd b | .jnzInd b | .jcInd b | .jncInd b | .joInd b | .jnoInd b | .jsInd b | .jnsInd b =>
    [.registerIndirect b]
  | .ret r => [.register r]
  | .halt => []

/-- R61: an instruction's opcode and operands form one of the legal forms. Every `Instr` does
(`Sys2Proof.Laws.DeclaredShape`). -/
def Instr.wellFormed (i : Instr) : Bool := Sys2Proof.wellFormed i.opcode i.operands

/-! ## The decoder (R59) -/

/-- R172, R173: the two decode faults, each with the opcode field it reports. -/
inductive DecodeFault where
  | invalidOpcode (op : BitVec 8)
  | invalidOperand (op : BitVec 8)
  deriving DecidableEq, Repr

/-- R54, R55: the register a 4-bit identifier names; 8 to 15 name none. -/
def regOf (id : BitVec 4) : Option Reg :=
  if h : id.toNat < 8 then some ⟨id.toNat, h⟩ else none

/-- R55: the register `BV` names when `SB` is 1 or 4, all bits above the identifier being zero. -/
def regOfBV (bv : BitVec 16) : Option Reg :=
  if h : bv.toNat < 8 then some ⟨bv.toNat, h⟩ else none

/-- R53, R54: operand A: `some none` where the fields say there is none, `none` where they are malformed. -/
def operandA (sa : BitVec 1) (ra : BitVec 4) : Option (Option Reg) :=
  if sa = 1 then (regOf ra).map some
  else if ra = 0 then some none else none

/-- R52, R55: operand B: `some none` where the fields say there is none, `none` where they are malformed. -/
def operandB (sb : BitVec 3) (bv : BitVec 16) : Option (Option Operand) :=
  if sb = 0 then (if bv = 0 then some none else none)
  else if sb = 1 then (regOfBV bv).map fun r => some (.register r)
  else if sb = 2 then some (some (.immediate bv))
  else if sb = 3 then some (some (.memoryAddress bv))
  else if sb = 4 then (regOfBV bv).map fun r => some (.registerIndirect r)
  else none

/-- R61: (Register, Register) or (Register, Immediate). -/
def valueForm (rr : Reg → Reg → Instr) (ri : Reg → BitVec 16 → Instr) : Option Reg → Option Operand → Option Instr
  | some d, some (.register s) => some (rr d s)
  | some d, some (.immediate n) => some (ri d n)
  | _, _ => none

/-- R61: (Register, MemoryAddress) or (Register, RegisterIndirect). -/
def addressForm (rm : Reg → BitVec 16 → Instr) (rb : Reg → Reg → Instr) : Option Reg → Option Operand → Option Instr
  | some r, some (.memoryAddress a) => some (rm r a)
  | some r, some (.registerIndirect b) => some (rb r b)
  | _, _ => none

/-- R61: (MemoryAddress) or (RegisterIndirect). -/
def targetForm (m : BitVec 16 → Instr) (b : Reg → Instr) : Option Reg → Option Operand → Option Instr
  | none, some (.memoryAddress a) => some (m a)
  | none, some (.registerIndirect r) => some (b r)
  | _, _ => none

/-- R61: (Register). -/
def registerForm (f : Reg → Instr) : Option Reg → Option Operand → Option Instr
  | some r, none => some (f r)
  | _, _ => none

/-- R61: no operands. -/
def emptyForm (i : Instr) : Option Reg → Option Operand → Option Instr
  | none, none => some i
  | _, _ => none

/-- R59 step 3, R61: the form an opcode and its operands A and B spell, if the opcode declares that shape. -/
def formOf : Opcode → Option Reg → Option Operand → Option Instr
  | .mov => valueForm .movReg .movImm
  | .load => addressForm .loadMem .loadInd
  | .store => addressForm .storeMem .storeInd
  | .add => valueForm .addReg .addImm
  | .sub => valueForm .subReg .subImm
  | .and => valueForm .andReg .andImm
  | .or => valueForm .orReg .orImm
  | .xor => valueForm .xorReg .xorImm
  | .shl => valueForm .shlReg .shlImm
  | .shr => valueForm .shrReg .shrImm
  | .sar => valueForm .sarReg .sarImm
  | .cmp => valueForm .cmpReg .cmpImm
  | .div => valueForm .divReg .divImm
  | .jmp => targetForm .jmpMem .jmpInd
  | .jz => targetForm .jzMem .jzInd
  | .jnz => targetForm .jnzMem .jnzInd
  | .jc => targetForm .jcMem .jcInd
  | .jnc => targetForm .jncMem .jncInd
  | .jo => targetForm .joMem .joInd
  | .jno => targetForm .jnoMem .jnoInd
  | .js => targetForm .jsMem .jsInd
  | .jns => targetForm .jnsMem .jnsInd
  | .call => addressForm .callMem .callInd
  | .ret => registerForm .ret
  | .halt => emptyForm .halt

/-- R59, R65: the decoder. The opcode test comes first (R178). -/
def decode (w : Word) : Except DecodeFault Instr :=
  match opcodeOf (fieldOP w) with
  | none => .error (.invalidOpcode (fieldOP w))
  | some o =>
    match (operandA (fieldSA w) (fieldRA w)).bind fun a => (operandB (fieldSB w) (fieldBV w)).bind fun b => formOf o a b with
    | none => .error (.invalidOperand (fieldOP w))
    | some i => .ok i

/-- The decoder on an instruction of `nbits` bits given as a number, bit 0 the least significant bit of the Word. Every
instruction is one Word (R50, R66), so a longer one is none, and bits above a shorter one are zero. -/
def decodeTableWord (nbits w : Nat) : Option Instr :=
  if nbits ≤ 32 then
    match decode (BitVec.ofNat 32 (w % 2 ^ nbits)) with
    | .ok i => some i
    | .error _ => none
  else none

/-! ## The encoder -/

/-- R51, R58: operand A of an instruction: a Register at the head of its operand list (no opcode without an operand A
takes a Register as operand B, R61). -/
def Instr.operandA (i : Instr) : Option Reg :=
  match i.operands with
  | .register r :: _ => some r
  | _ => none

/-- R58: operand B of an instruction: what its operand list holds beside operand A. -/
def Instr.operandB (i : Instr) : Option Operand :=
  match i.operands with
  | .register _ :: rest => rest.head?
  | ops => ops.head?

/-- R53, R54: the `SA` and `RA` fields of operand A. -/
def fieldsOfA : Option Reg → BitVec 1 × BitVec 4
  | some r => (1, BitVec.ofNat 4 r.val)
  | none => (0, 0)

/-- R52, R55: the `SB` and `BV` fields of operand B. -/
def fieldsOfB : Option Operand → BitVec 3 × BitVec 16
  | none => (0, 0)
  | some (.register r) => (1, BitVec.ofNat 16 r.val)
  | some (.immediate n) => (2, n)
  | some (.memoryAddress a) => (3, a)
  | some (.registerIndirect r) => (4, BitVec.ofNat 16 r.val)

/-- R50 to R61: the Word of an instruction. -/
def encode (i : Instr) : Word :=
  packWord i.opcode.code (fieldsOfB i.operandB).1 (fieldsOfA i.operandA).1 (fieldsOfA i.operandA).2
    (fieldsOfB i.operandB).2

end Sys2Proof
end

