-- ==== Sys2Proof/Config.lean ====
section
/-! DEFINITION. The parameters of the machine (00_scope.md R6): the two the spec leaves OPEN, as one record, and the
constants the model needs by name. -/

namespace Sys2Proof

/-- R6, R47: the two OPEN parameters of a session, the model's arguments. -/
structure Config where
  /-- `MEM_SIZE`, the number of cells, `1 <= MEM_SIZE <= 2^32` (`Config.ok`). -/
  memSize : Nat
  /-- `INIT_MEM`, a total map from addresses to Words, as the list of the cells that differ from
  `Config.fillWord`, addresses rising. Every map on `[0, MEM_SIZE)` has such a list, so this fixes no content. -/
  initMem : List (Nat × Word)
  deriving DecidableEq, Repr

/-- What an address with no entry in a memory list reads as. It belongs to the representation: a cell may hold any
Word, and the list names the cells that do not hold this one (notes/assumptions/3.md). -/
def Config.fillWord : Word := 0

/-- R6: `RESET_PC`, the entry point. -/
def Config.resetPc : Word := 0

/-- DESIGN CHOICE (unsafe for claims about `State.reset` alone; notes/assumptions/1.md and 2.md): the parameters of the
one session the host runs, `MEM_SIZE` = 65536 as in 95_test_vectors.md, `INIT_MEM` with every cell `fillWord`. -/
def Config.forReset : Config := { memSize := 65536, initMem := [] }

end Sys2Proof
end

