-- ==== Sys2Proof/Machine/State.lean ====
section
/-! DEFINITION. The whole state of one session (10_state.md), the reasons a host operation can stop, and the state after
power-on. -/

namespace Sys2Proof.Machine

/-- R18, R20: the four flags, separate bits reached by name. -/
structure Flags where
  z : Bool
  c : Bool
  v : Bool
  s : Bool
  deriving DecidableEq, Repr

/-- R20: the names of the flags. -/
inductive FlagName where
  | zero | carry | overflow | sign
  deriving DecidableEq, Repr

/-- R170, R179: the closed enumeration of fault reasons. -/
inductive FaultReason where
  /-- R171: an access at an address outside memory (fetch, `LOAD`, `STORE`). -/
  | memoryFault
  /-- R172: `DecodeFault.InvalidOpcode`, an unassigned opcode. -/
  | invalidOpcode
  /-- R173: `DecodeFault.InvalidOperand`, an operand count, shape or field the opcode does not declare. -/
  | invalidOperand
  /-- R174: `ArithmeticFault`, division by zero. -/
  | arithmeticFault
  deriving DecidableEq, Repr

/-- R175: what a fault records: its reason and one Word of information. -/
structure FaultReport where
  reason : FaultReason
  info : Word
  deriving DecidableEq, Repr

/-- R21, R152: the run-status. -/
inductive Status where
  | ready
  | running
  | halted
  | faulted (reason : FaultReason) (info : Word)
  deriving DecidableEq, Repr

/-- R22, R30: memory as (address, Word) pairs; an address with no pair holds `Config.fillWord`. -/
abbrev Memory := List (Nat × Word)

/-- The one canonical form of a memory: addresses strictly rising, no pair for a cell that holds `Config.fillWord`, so
that equal memories are equal lists (notes/assumptions/3.md). -/
def Memory.wf : Memory → Bool
  | [] => true
  | c :: m => c.2 != Config.fillWord && m.all (fun d => decide (c.1 < d.1)) && Memory.wf m

/-- 10_state.md: MachineState. `memSize` carries the model argument `MEM_SIZE` (notes/assumptions/1.md). -/
structure State where
  /-- R10: `x[0..7]`. -/
  regs : Vector Word 8
  /-- R14. -/
  pc : Word
  /-- R18: `Z C V S`. -/
  flags : Flags
  /-- R21. -/
  status : Status
  /-- R47: `MEM_SIZE`, fixed for the life of a session. -/
  memSize : Nat
  /-- R22: `M[0..MEM_SIZE-1]`. -/
  mem : Memory
  deriving DecidableEq, Repr

/-- The reasons a host operation can stop with a fault. No step and no instruction answers one: a fault of the machine is
a next state whose status is `Faulted` (R176; notes/assumptions/5.md). -/
inductive Fault where
  /-- R40: `loadProgram`'s load-bounds fault, of class MemoryFault: a return value to the loader, not a status of the
  machine. Raised by `loadProgram` alone. Safe: it is the outcome the spec names, and nothing is written. -/
  | loadOutOfBounds
  deriving DecidableEq, Repr

/-- The reasons the model gives no move. -/
inductive Refusal where
  /-- An instruction whose meaning the model does not hold. Raised by `exec` alone; no arm raises it. Safe. -/
  | notModelled (mnemonic : String)
  /-- R163: a `loadProgram` while `status = Running`, "a host action the model gives no move". Raised by `loadProgram`
  alone. Safe: the model stops where another machine might go on. -/
  | loadWhileRunning
  deriving DecidableEq, Repr

/-- R203: a new session with parameters `c`: the reset state of R200 with `M = INIT_MEM`. -/
def State.powerOn (c : Config) : State where
  regs := Vector.replicate 8 0
  pc := Config.resetPc
  flags := { z := false, c := false, v := false, s := false }
  status := .ready
  memSize := c.memSize
  mem := c.initMem

/-- R26, R200, R203: the machine right after power-on and reset, for the parameters `Config.forReset`. -/
def State.reset : State := State.powerOn Config.forReset

end Sys2Proof.Machine
end

