-- ==== Sys2Proof/Machine/Ops.lean ====
section
/-! DEFINITION. The named operations over registers, flags, memory, `pc` and `status`; fault entry, and the one way out of a
fault beside it. Every read and write of the state goes through these. -/

namespace Sys2Proof.Machine

/-! ## Registers and flags -/

/-- R12, R27: a register read port. -/
def State.getReg (s : State) (r : Reg) : Word := s.regs[r.val]

/-- R12, R27: the register write port. -/
def State.setReg (s : State) (r : Reg) (v : Word) : State := { s with regs := s.regs.set r.val v }

/-- R20: `getFlag(name)`. -/
def State.getFlag (s : State) : FlagName → Bool
  | .zero => s.flags.z
  | .carry => s.flags.c
  | .overflow => s.flags.v
  | .sign => s.flags.s

/-- R7, R27, R95: `flags <- (z, c, v, s)`, one write enable for all four. -/
def State.setFlags (s : State) (f : Flags) : State := { s with flags := f }

/-! ## Memory -/

/-- R22, R33: the whole Word in cell `a`. -/
def Memory.read : Memory → Nat → Word
  | [], _ => Config.fillWord
  | c :: m, a => if c.1 = a then c.2 else Memory.read m a

/-- Cell `a` back to `Config.fillWord`. -/
def Memory.erase (m : Memory) (a : Nat) : Memory := m.filter fun c => c.1 != a

/-- The pair `(a, v)` put before the first higher address. -/
def Memory.insert (a : Nat) (v : Word) : Memory → Memory
  | [] => [(a, v)]
  | c :: m => if a < c.1 then (a, v) :: c :: m else c :: Memory.insert a v m

/-- R33: cell `a` replaced whole by `v`, in the canonical form. -/
def Memory.write (m : Memory) (a : Nat) (v : Word) : Memory :=
  if v = Config.fillWord then m.erase a else Memory.insert a v (m.erase a)

/-- R40: consecutive Words written from address `base` upwards. -/
def Memory.load : Memory → Nat → List Word → Memory
  | m, _, [] => m
  | m, base, w :: ws => Memory.load (m.write base w) (base + 1) ws

/-- R32: `MemRead(addr, 1)`. -/
def State.memRead (s : State) (addr : Word) : Except FaultReport Word :=
  if s.memSize ≤ addr.toNat then .error { reason := .memoryFault, info := addr }
  else .ok (s.mem.read addr.toNat)

/-- R32: `MemWrite(addr, 1, v)`. -/
def State.memWrite (s : State) (addr v : Word) : Except FaultReport State :=
  if s.memSize ≤ addr.toNat then .error { reason := .memoryFault, info := addr }
  else .ok { s with mem := s.mem.write addr.toNat v }

/-- R153 step 2: the fetch, a memory read at `pc`. -/
def State.fetch (s : State) : Except FaultReport Word := s.memRead s.pc

/-! ## Completing a step (R15, R153 steps 4 and 5) -/

/-- R15, R16: the address of the next instruction, wrapping. -/
def State.nextPc (s : State) : Word := wrap (unsignedOf s.pc + 1)

/-- R15, R155: complete the step with an explicit new `pc`; a step that completes and is no `HALT` ends in `Running`. -/
def State.jump (s : State) (target : Word) : State := { s with pc := target, status := .running }

/-- R15, R155: complete the step with the default advance. -/
def State.advance (s : State) : State := s.jump s.nextPc

/-- R140: complete the step of `HALT`. -/
def State.halt (s : State) : State := { s with pc := s.nextPc, status := .halted }

/-! ## Faults -/

/-- R176, R177: FAULT ENTRY, the whole of it: `status <- Faulted(reason, info)`. There is no saved `pc`, no saved status,
no mode and no vector (R180). -/
def State.raise (s : State) (f : FaultReport) : State := { s with status := .faulted f.reason f.info }

/-- R181, R200, R201: no instruction returns from a fault; the host's `reset()` is the only way out of `Faulted` and
`Halted`. It may be called in any status and leaves memory as it is. -/
def State.hostReset (s : State) : State :=
  { s with
    regs := Vector.replicate 8 0
    pc := Config.resetPc
    flags := { z := false, c := false, v := false, s := false }
    status := .ready }

/-- R172, R173, R175: what a decode fault records, the opcode field zero-extended to a Word. -/
def decodeReport : DecodeFault → FaultReport
  | .invalidOpcode op => { reason := .invalidOpcode, info := op.setWidth 32 }
  | .invalidOperand op => { reason := .invalidOperand, info := op.setWidth 32 }

/-- R156: `Halted` and `Faulted` are the terminal values. -/
def terminal : Status → Bool
  | .ready | .running => false
  | .halted | .faulted _ _ => true

end Sys2Proof.Machine
end

