-- ==== Sys2Proof/Machine/Operands.lean ====
section
/-! DEFINITION. Operand assembly: the value and the address an operand B gives (30_encoding.md R56, R57), read from the
state before the step (R154). -/

namespace Sys2Proof.Machine

/-- R7: `sext_16(v)`. -/
def sext16 (v : BitVec 16) : Word := v.signExtend 32

/-- R7: `zext_16(v)`. -/
def zext16 (v : BitVec 16) : Word := v.setWidth 32

/-- R56: `valB` of a Register operand. -/
def valueReg (r : Reg) (s : State) : Word := s.getReg r

/-- R56: `valB` of an Immediate operand, sign-extended for every instruction. -/
def valueImm (imm : BitVec 16) : Word := sext16 imm

/-- R57: `ea` of a MemoryAddress operand, zero-extended. -/
def addressMem (addr : BitVec 16) : Word := zext16 addr

/-- R57: `ea` of a RegisterIndirect operand, the whole register. -/
def addressInd (r : Reg) (s : State) : Word := s.getReg r

end Sys2Proof.Machine
end

