-- ==== Sys2Proof/Machine/Flags.lean ====
section
/-! DEFINITION. The ALU and every flag computation (41_alu.md): pure functions of the two operand Words to a result Word
and the four flags it implies (R90). -/

namespace Sys2Proof.Machine

/-- R90: what the ALU yields. -/
structure AluOut where
  result : Word
  flags : Flags
  deriving DecidableEq, Repr

/-- R93: an exact unsigned result is outside `[0, 2^32 - 1]`. -/
def unsignedOverflow (e : Int) : Bool := decide (e < 0 ∨ 4294967295 < e)

/-- R94: an exact signed result is outside `[-2^31, 2^31 - 1]`. -/
def signedOverflow (e : Int) : Bool := decide (e < -2147483648 ∨ 2147483647 < e)

/-- R91 to R94: the flags of result `r`, whose exact value is `eu` on the unsigned readings and `es` on the signed. -/
def flagsOf (r : Word) (eu es : Int) : Flags :=
  { z := decide (r = 0), c := unsignedOverflow eu, v := signedOverflow es, s := r.msb }

/-- R102, R106: the flags of an operator whose exact result always fits: Z and S from the result, C = V = 0. -/
def flagsOfFit (r : Word) : Flags := { z := decide (r = 0), c := false, v := false, s := r.msb }

/-- R100. -/
def aluAdd (a b : Word) : AluOut :=
  let r := wrap (unsignedOf a + unsignedOf b)
  { result := r, flags := flagsOf r (unsignedOf a + unsignedOf b) (signedOf a + signedOf b) }

/-- R101, R108. -/
def aluSub (a b : Word) : AluOut :=
  let r := wrap (unsignedOf a - unsignedOf b)
  { result := r, flags := flagsOf r (unsignedOf a - unsignedOf b) (signedOf a - signedOf b) }

/-- R102. -/
def aluAnd (a b : Word) : AluOut := { result := a &&& b, flags := flagsOfFit (a &&& b) }

/-- R103. -/
def aluOr (a b : Word) : AluOut := { result := a ||| b, flags := flagsOfFit (a ||| b) }

/-- R104. -/
def aluXor (a b : Word) : AluOut := { result := a ^^^ b, flags := flagsOfFit (a ^^^ b) }

/-- R105 to R107: `2^n` for the unmasked count `n = u(valB)`, with `n` cut off at 32. Every count from 32 up gives the same
result and the same flags as 32, so the cut changes nothing and keeps the number small (DEDUCED;
notes/assumptions/4.md). -/
def shiftFactor (b : Word) : Int := (Nat.pow 2 (min b.toNat 32) : Nat)

/-- R105. -/
def aluShl (a b : Word) : AluOut :=
  let r := wrap (unsignedOf a * shiftFactor b)
  { result := r, flags := flagsOf r (unsignedOf a * shiftFactor b) (signedOf a * shiftFactor b) }

/-- R106: `wrap(floor(u(a) / 2^n))`. -/
def aluShr (a b : Word) : AluOut :=
  let r := wrap (Int.fdiv (unsignedOf a) (shiftFactor b))
  { result := r, flags := flagsOfFit r }

/-- R107: `wrap(floor(s(a) / 2^n))`, rounding toward minus infinity. -/
def aluSar (a b : Word) : AluOut :=
  let r := wrap (Int.fdiv (signedOf a) (shiftFactor b))
  { result := r, flags := flagsOfFit r }

/-- R109: `wrap(floor(u(a) / u(b)))`, or `ArithmeticFault` recording the opcode of `DIV` (R174). -/
def aluDiv (a b : Word) : Except FaultReport AluOut :=
  if unsignedOf b = 0 then .error { reason := .arithmeticFault, info := Opcode.div.code.setWidth 32 }
  else
    let r := wrap (Int.fdiv (unsignedOf a) (unsignedOf b))
    .ok { result := r, flags := flagsOfFit r }

end Sys2Proof.Machine
end

