-- ==== Sys2Proof/Machine/Alu.lean ====
section
/-! DEFINITION. The ten arithmetic/logic instructions (41_alu.md). Each reads operand A's register and operand B, and
in a completed step writes all four flags (R95) and advances `pc` by one (R96). -/

namespace Sys2Proof.Machine

/-- R96: result to operand A's register, all four flags, default advance. -/
def aluInto (rd : Reg) (o : AluOut) (s : State) : Host.Outcome State Fault Refusal :=
  .next ((s.setReg rd o.result).setFlags o.flags).advance

/-- R108: the flags alone, default advance; no register is written. -/
def aluFlagsOnly (o : AluOut) (s : State) : Host.Outcome State Fault Refusal :=
  .next (s.setFlags o.flags).advance

/-- R109: as `aluInto`, or the `ArithmeticFault` is taken and nothing else happens. -/
def aluIntoOrFault (rd : Reg) (r : Except FaultReport AluOut) (s : State) : Host.Outcome State Fault Refusal :=
  match r with
  | .ok o => aluInto rd o s
  | .error f => .next (s.raise f)

/-- R100, `ADD Rd, Rs`. -/
def execAddReg (rd rs : Reg) (s : State) : Host.Outcome State Fault Refusal :=
  aluInto rd (aluAdd (s.getReg rd) (valueReg rs s)) s

/-- R100, `ADD Rd, imm16`. -/
def execAddImm (rd : Reg) (imm : BitVec 16) (s : State) : Host.Outcome State Fault Refusal :=
  aluInto rd (aluAdd (s.getReg rd) (valueImm imm)) s

/-- R101, `SUB Rd, Rs`. -/
def execSubReg (rd rs : Reg) (s : State) : Host.Outcome State Fault Refusal :=
  aluInto rd (aluSub (s.getReg rd) (valueReg rs s)) s

/-- R101, `SUB Rd, imm16`. -/
def execSubImm (rd : Reg) (imm : BitVec 16) (s : State) : Host.Outcome State Fault Refusal :=
  aluInto rd (aluSub (s.getReg rd) (valueImm imm)) s

/-- R102, `AND Rd, Rs`. -/
def execAndReg (rd rs : Reg) (s : State) : Host.Outcome State Fault Refusal :=
  aluInto rd (aluAnd (s.getReg rd) (valueReg rs s)) s

/-- R102, `AND Rd, imm16`. -/
def execAndImm (rd : Reg) (imm : BitVec 16) (s : State) : Host.Outcome State Fault Refusal :=
  aluInto rd (aluAnd (s.getReg rd) (valueImm imm)) s

/-- R103, `OR Rd, Rs`. -/
def execOrReg (rd rs : Reg) (s : State) : Host.Outcome State Fault Refusal :=
  aluInto rd (aluOr (s.getReg rd) (valueReg rs s)) s

/-- R103, `OR Rd, imm16`. -/
def execOrImm (rd : Reg) (imm : BitVec 16) (s : State) : Host.Outcome State Fault Refusal :=
  aluInto rd (aluOr (s.getReg rd) (valueImm imm)) s

/-- R104, `XOR Rd, Rs`. -/
def execXorReg (rd rs : Reg) (s : State) : Host.Outcome State Fault Refusal :=
  aluInto rd (aluXor (s.getReg rd) (valueReg rs s)) s

/-- R104, `XOR Rd, imm16`. -/
def execXorImm (rd : Reg) (imm : BitVec 16) (s : State) : Host.Outcome State Fault Refusal :=
  aluInto rd (aluXor (s.getReg rd) (valueImm imm)) s

/-- R105, `SHL Rd, Rs`. -/
def execShlReg (rd rs : Reg) (s : State) : Host.Outcome State Fault Refusal :=
  aluInto rd (aluShl (s.getReg rd) (valueReg rs s)) s

/-- R105, `SHL Rd, imm16`. -/
def execShlImm (rd : Reg) (imm : BitVec 16) (s : State) : Host.Outcome State Fault Refusal :=
  aluInto rd (aluShl (s.getReg rd) (valueImm imm)) s

/-- R106, `SHR Rd, Rs`. -/
def execShrReg (rd rs : Reg) (s : State) : Host.Outcome State Fault Refusal :=
  aluInto rd (aluShr (s.getReg rd) (valueReg rs s)) s

/-- R106, `SHR Rd, imm16`. -/
def execShrImm (rd : Reg) (imm : BitVec 16) (s : State) : Host.Outcome State Fault Refusal :=
  aluInto rd (aluShr (s.getReg rd) (valueImm imm)) s

/-- R107, `SAR Rd, Rs`. -/
def execSarReg (rd rs : Reg) (s : State) : Host.Outcome State Fault Refusal :=
  aluInto rd (aluSar (s.getReg rd) (valueReg rs s)) s

/-- R107, `SAR Rd, imm16`. -/
def execSarImm (rd : Reg) (imm : BitVec 16) (s : State) : Host.Outcome State Fault Refusal :=
  aluInto rd (aluSar (s.getReg rd) (valueImm imm)) s

/-- R108, `CMP Rd, Rs`. -/
def execCmpReg (rd rs : Reg) (s : State) : Host.Outcome State Fault Refusal :=
  aluFlagsOnly (aluSub (s.getReg rd) (valueReg rs s)) s

/-- R108, `CMP Rd, imm16`. -/
def execCmpImm (rd : Reg) (imm : BitVec 16) (s : State) : Host.Outcome State Fault Refusal :=
  aluFlagsOnly (aluSub (s.getReg rd) (valueImm imm)) s

/-- R109, `DIV Rd, Rs`. -/
def execDivReg (rd rs : Reg) (s : State) : Host.Outcome State Fault Refusal :=
  aluIntoOrFault rd (aluDiv (s.getReg rd) (valueReg rs s)) s

/-- R109, `DIV Rd, imm16`. -/
def execDivImm (rd : Reg) (imm : BitVec 16) (s : State) : Host.Outcome State Fault Refusal :=
  aluIntoOrFault rd (aluDiv (s.getReg rd) (valueImm imm)) s

end Sys2Proof.Machine
end

