-- ==== Sys2Proof/Machine/ControlTransfer.lean ====
section
/-! DEFINITION. Control transfer: `JMP`, the eight conditional jumps, `CALL`, `RET` (42_control_transfer.md). Targets are
absolute and not checked (R120, R133); no flag and no memory cell is written. -/

namespace Sys2Proof.Machine

/-- R121: `pc <- ea`. -/
def jumpTo (ea : Word) (s : State) : Host.Outcome State Fault Refusal := .next (s.jump ea)

/-- R120, R122 to R129: `pc <- ea` when the flag has the wanted value, else the default advance. -/
def jumpIf (name : FlagName) (wanted : Bool) (ea : Word) (s : State) : Host.Outcome State Fault Refusal :=
  .next (if s.getFlag name = wanted then s.jump ea else s.advance)

/-- R130: `x[l] <- wrap(u(pc) + 1)`, `pc <- ea`, with `ea` read before the write. -/
def callTo (rl : Reg) (ea : Word) (s : State) : Host.Outcome State Fault Refusal :=
  .next ((s.setReg rl s.nextPc).jump ea)

/-- R121, `JMP [addr16]`. -/
def execJmpMem (addr : BitVec 16) (s : State) : Host.Outcome State Fault Refusal := jumpTo (addressMem addr) s

/-- R121, `JMP [Rb]`. -/
def execJmpInd (rb : Reg) (s : State) : Host.Outcome State Fault Refusal := jumpTo (addressInd rb s) s

/-- R122, `JZ [addr16]`. -/
def execJzMem (addr : BitVec 16) (s : State) : Host.Outcome State Fault Refusal :=
  jumpIf .zero true (addressMem addr) s

/-- R122, `JZ [Rb]`. -/
def execJzInd (rb : Reg) (s : State) : Host.Outcome State Fault Refusal :=
  jumpIf .zero true (addressInd rb s) s

/-- R123, `JNZ [addr16]`. -/
def execJnzMem (addr : BitVec 16) (s : State) : Host.Outcome State Fault Refusal :=
  jumpIf .zero false (addressMem addr) s

/-- R123, `JNZ [Rb]`. -/
def execJnzInd (rb : Reg) (s : State) : Host.Outcome State Fault Refusal :=
  jumpIf .zero false (addressInd rb s) s

/-- R124, `JC [addr16]`. -/
def execJcMem (addr : BitVec 16) (s : State) : Host.Outcome State Fault Refusal :=
  jumpIf .carry true (addressMem addr) s

/-- R124, `JC [Rb]`. -/
def execJcInd (rb : Reg) (s : State) : Host.Outcome State Fault Refusal :=
  jumpIf .carry true (addressInd rb s) s

/-- R125, `JNC [addr16]`. -/
def execJncMem (addr : BitVec 16) (s : State) : Host.Outcome State Fault Refusal :=
  jumpIf .carry false (addressMem addr) s

/-- R125, `JNC [Rb]`. -/
def execJncInd (rb : Reg) (s : State) : Host.Outcome State Fault Refusal :=
  jumpIf .carry false (addressInd rb s) s

/-- R126, `JO [addr16]`. -/
def execJoMem (addr : BitVec 16) (s : State) : Host.Outcome State Fault Refusal :=
  jumpIf .overflow true (addressMem addr) s

/-- R126, `JO [Rb]`. -/
def execJoInd (rb : Reg) (s : State) : Host.Outcome State Fault Refusal :=
  jumpIf .overflow true (addressInd rb s) s

/-- R127, `JNO [addr16]`. -/
def execJnoMem (addr : BitVec 16) (s : State) : Host.Outcome State Fault Refusal :=
  jumpIf .overflow false (addressMem addr) s

/-- R127, `JNO [Rb]`. -/
def execJnoInd (rb : Reg) (s : State) : Host.Outcome State Fault Refusal :=
  jumpIf .overflow false (addressInd rb s) s

/-- R128, `JS [addr16]`. -/
def execJsMem (addr : BitVec 16) (s : State) : Host.Outcome State Fault Refusal :=
  jumpIf .sign true (addressMem addr) s

/-- R128, `JS [Rb]`. -/
def execJsInd (rb : Reg) (s : State) : Host.Outcome State Fault Refusal :=
  jumpIf .sign true (addressInd rb s) s

/-- R129, `JNS [addr16]`. -/
def execJnsMem (addr : BitVec 16) (s : State) : Host.Outcome State Fault Refusal :=
  jumpIf .sign false (addressMem addr) s

/-- R129, `JNS [Rb]`. -/
def execJnsInd (rb : Reg) (s : State) : Host.Outcome State Fault Refusal :=
  jumpIf .sign false (addressInd rb s) s

/-- R130, `CALL Rl, [addr16]`. -/
def execCallMem (rl : Reg) (addr : BitVec 16) (s : State) : Host.Outcome State Fault Refusal :=
  callTo rl (addressMem addr) s

/-- R130, `CALL Rl, [Rb]`. -/
def execCallInd (rl rb : Reg) (s : State) : Host.Outcome State Fault Refusal := callTo rl (addressInd rb s) s

/-- R131, `RET Rl`. -/
def execRet (rl : Reg) (s : State) : Host.Outcome State Fault Refusal := jumpTo (s.getReg rl) s

end Sys2Proof.Machine
end

