-- ==== Sys2Proof/Machine/DataMovement.lean ====
section
/-! DEFINITION. Data movement: `MOV`, `LOAD`, `STORE` (40_data_movement.md). None writes a flag (R80). -/

namespace Sys2Proof.Machine

/-- R81: `x[d] <- v`, default advance. -/
def moveValue (rd : Reg) (v : Word) (s : State) : Host.Outcome State Fault Refusal :=
  .next (s.setReg rd v).advance

/-- R82: `x[d] <- MemRead(ea, 1)`, default advance; a `MemoryFault` is taken and nothing else happens. -/
def loadFrom (rd : Reg) (ea : Word) (s : State) : Host.Outcome State Fault Refusal :=
  match s.memRead ea with
  | .ok v => .next (s.setReg rd v).advance
  | .error f => .next (s.raise f)

/-- R83: `MemWrite(ea, 1, x[s])`, default advance; a `MemoryFault` is taken and nothing else happens. -/
def storeTo (rs : Reg) (ea : Word) (s : State) : Host.Outcome State Fault Refusal :=
  match s.memWrite ea (s.getReg rs) with
  | .ok t => .next t.advance
  | .error f => .next (s.raise f)

/-- R81, `MOV Rd, Rs`. -/
def execMovReg (rd rs : Reg) (s : State) : Host.Outcome State Fault Refusal := moveValue rd (valueReg rs s) s

/-- R81, `MOV Rd, imm16`. -/
def execMovImm (rd : Reg) (imm : BitVec 16) (s : State) : Host.Outcome State Fault Refusal :=
  moveValue rd (valueImm imm) s

/-- R82, `LOAD Rd, [addr16]`. -/
def execLoadMem (rd : Reg) (addr : BitVec 16) (s : State) : Host.Outcome State Fault Refusal :=
  loadFrom rd (addressMem addr) s

/-- R82, `LOAD Rd, [Rb]`. -/
def execLoadInd (rd rb : Reg) (s : State) : Host.Outcome State Fault Refusal := loadFrom rd (addressInd rb s) s

/-- R83, `STORE Rs, [addr16]`. -/
def execStoreMem (rs : Reg) (addr : BitVec 16) (s : State) : Host.Outcome State Fault Refusal :=
  storeTo rs (addressMem addr) s

/-- R83, `STORE Rs, [Rb]`. -/
def execStoreInd (rs rb : Reg) (s : State) : Host.Outcome State Fault Refusal := storeTo rs (addressInd rb s) s

end Sys2Proof.Machine
end

