-- ==== Sys2Proof/Machine/System.lean ====
section
/-! DEFINITION. System instructions: `HALT` alone (43_system.md). -/

namespace Sys2Proof.Machine

/-- R140, `HALT`. -/
def execHalt (s : State) : Host.Outcome State Fault Refusal := .next s.halt

end Sys2Proof.Machine
end

