-- ==== Sys2Proof/Machine/Dispatch.lean ====
section
/-! DEFINITION. The instruction table of the execution engine (50_execution_engine.md R164): one meaning per form. -/

namespace Sys2Proof.Machine

def exec (i : Instr) (s : State) : Host.Outcome State Fault Refusal :=
  match i with
  | .movReg rd rs => Sys2Proof.Machine.execMovReg rd rs s
  | .movImm rd imm => Sys2Proof.Machine.execMovImm rd imm s
  | .loadMem rd addr => Sys2Proof.Machine.execLoadMem rd addr s
  | .loadInd rd rb => Sys2Proof.Machine.execLoadInd rd rb s
  | .storeMem rs addr => Sys2Proof.Machine.execStoreMem rs addr s
  | .storeInd rs rb => Sys2Proof.Machine.execStoreInd rs rb s
  | .addReg rd rs => Sys2Proof.Machine.execAddReg rd rs s
  | .addImm rd imm => Sys2Proof.Machine.execAddImm rd imm s
  | .subReg rd rs => Sys2Proof.Machine.execSubReg rd rs s
  | .subImm rd imm => Sys2Proof.Machine.execSubImm rd imm s
  | .andReg rd rs => Sys2Proof.Machine.execAndReg rd rs s
  | .andImm rd imm => Sys2Proof.Machine.execAndImm rd imm s
  | .orReg rd rs => Sys2Proof.Machine.execOrReg rd rs s
  | .orImm rd imm => Sys2Proof.Machine.execOrImm rd imm s
  | .xorReg rd rs => Sys2Proof.Machine.execXorReg rd rs s
  | .xorImm rd imm => Sys2Proof.Machine.execXorImm rd imm s
  | .shlReg rd rs => Sys2Proof.Machine.execShlReg rd rs s
  | .shlImm rd imm => Sys2Proof.Machine.execShlImm rd imm s
  | .shrReg rd rs => Sys2Proof.Machine.execShrReg rd rs s
  | .shrImm rd imm => Sys2Proof.Machine.execShrImm rd imm s
  | .sarReg rd rs => Sys2Proof.Machine.execSarReg rd rs s
  | .sarImm rd imm => Sys2Proof.Machine.execSarImm rd imm s
  | .cmpReg rd rs => Sys2Proof.Machine.execCmpReg rd rs s
  | .cmpImm rd imm => Sys2Proof.Machine.execCmpImm rd imm s
  | .divReg rd rs => Sys2Proof.Machine.execDivReg rd rs s
  | .divImm rd imm => Sys2Proof.Machine.execDivImm rd imm s
  | .jmpMem addr => Sys2Proof.Machine.execJmpMem addr s
  | .jmpInd rb => Sys2Proof.Machine.execJmpInd rb s
  | .jzMem addr => Sys2Proof.Machine.execJzMem addr s
  | .jzInd rb => Sys2Proof.Machine.execJzInd rb s
  | .jnzMem addr => Sys2Proof.Machine.execJnzMem addr s
  | .jnzInd rb => Sys2Proof.Machine.execJnzInd rb s
  | .jcMem addr => Sys2Proof.Machine.execJcMem addr s
  | .jcInd rb => Sys2Proof.Machine.execJcInd rb s
  | .jncMem addr => Sys2Proof.Machine.execJncMem addr s
  | .jncInd rb => Sys2Proof.Machine.execJncInd rb s
  | .joMem addr => Sys2Proof.Machine.execJoMem addr s
  | .joInd rb => Sys2Proof.Machine.execJoInd rb s
  | .jnoMem addr => Sys2Proof.Machine.execJnoMem addr s
  | .jnoInd rb => Sys2Proof.Machine.execJnoInd rb s
  | .jsMem addr => Sys2Proof.Machine.execJsMem addr s
  | .jsInd rb => Sys2Proof.Machine.execJsInd rb s
  | .jnsMem addr => Sys2Proof.Machine.execJnsMem addr s
  | .jnsInd rb => Sys2Proof.Machine.execJnsInd rb s
  | .callMem rl addr => Sys2Proof.Machine.execCallMem rl addr s
  | .callInd rl rb => Sys2Proof.Machine.execCallInd rl rb s
  | .ret rl => Sys2Proof.Machine.execRet rl s
  | .halt => Sys2Proof.Machine.execHalt s

end Sys2Proof.Machine
end

