-- ==== Sys2Proof/Machine/Step.lean ====
section
/-! DEFINITION. One step of the execution engine (50_execution_engine.md R153). -/

namespace Sys2Proof.Machine

/-- R153, R156, R178: nothing in a terminal status; else fetch, decode, execute, the first fault being taken. A meaning
of `exec` performs the commit, `status` included (R155). -/
def step (s : State) : Host.Outcome State Fault Refusal :=
  if terminal s.status then .next s
  else
    match s.fetch with
    | .error f => .next (s.raise f)
    | .ok w =>
      match decode w with
      | .error d => .next (s.raise (decodeReport d))
      | .ok i => exec i s

/-- `s` with the instruction word `w` where `step` fetches next (notes/assumptions/6.md). The cell at `pc` holds it; and,
where the fetch needs it, a terminal status becomes `Running`, and memory reaches as far as `pc`. -/
def State.withFetchWord (s : State) (nbits w : Nat) : State :=
  { s with
    status := if terminal s.status then .running else s.status
    memSize := max s.memSize (s.pc.toNat + 1)
    mem := s.mem.write s.pc.toNat (BitVec.ofNat 32 (w % 2 ^ nbits)) }

end Sys2Proof.Machine
end

