-- ==== Sys2Proof/Machine/Engine.lean ====
section
/-! DEFINITION. The host operations around `step` (50_execution_engine.md R158 to R163, 20_memory.md R40). `reset()` is
`State.hostReset` in Machine/Ops.lean. -/

namespace Sys2Proof.Machine

/-- R40, R163: `loadProgram(base, words)`. All or nothing; only memory changes; the words are not decoded. `base` is an
unbounded integer (R40 computes `base + n` in unbounded integers). -/
def loadProgram (base : Nat) (words : List Word) (s : State) : Host.Outcome State Fault Refusal :=
  if s.status = .running then .refused .loadWhileRunning
  else if s.memSize < base + words.length then .fault .loadOutOfBounds
  else .next { s with mem := s.mem.load base words }

/-- R153, R156, R176: what a call of `step()` returns: the status the step leaves, a fault with its reason and `info`
included. -/
def stepReturns (s : State) : Host.Outcome Status Fault Refusal :=
  match step s with
  | .next t => .next t.status
  | .fault f => .fault f
  | .refused r => .refused r

/-- R158, R159: what a `run` call can report. `stepLimitReached` is never a status of the machine (R183). -/
inductive RunResult where
  | halted
  | faulted (reason : FaultReason) (info : Word)
  | stepLimitReached
  deriving DecidableEq, Repr

/-- R158: what `run` returns, and the state it leaves. -/
structure RunReport where
  result : RunResult
  /-- R160: the number of `step()` calls the run made. -/
  steps : Nat
  final : State
  deriving DecidableEq, Repr

/-- R158: the report of a terminal status. -/
def terminalResult : Status → Option RunResult
  | .ready | .running => none
  | .halted => some .halted
  | .faulted r i => some (.faulted r i)

/-- R160: one more `step()` made before the rest of a run. -/
def countStep : Host.Outcome RunReport Fault Refusal → Host.Outcome RunReport Fault Refusal
  | .next r => .next { r with steps := r.steps + 1 }
  | .fault f => .fault f
  | .refused r => .refused r

/-- R158: `run(maxSteps)`: the terminal test, then the budget test, then a step. -/
def run : Nat → State → Host.Outcome RunReport Fault Refusal
  | 0, s => .next { result := (terminalResult s.status).getD .stepLimitReached, steps := 0, final := s }
  | budget + 1, s =>
    match terminalResult s.status with
    | some r => .next { result := r, steps := 0, final := s }
    | none =>
      match step s with
      | .next t => countStep (run budget t)
      | .fault f => .fault f
      | .refused r => .refused r

/-- R161: `snapshot()`, the whole state and nothing more; a value, so it cannot change the machine. -/
def snapshot (s : State) : State := s

end Sys2Proof.Machine
end

