-- ==== Sys2Proof/Safety.lean ====
section
/-! DEFINITION. What a well-formed state is, and what a safe run is, in the terms claims use. -/

namespace Sys2Proof.Machine

/-- R6, R47: `1 <= MEM_SIZE <= 2^32`. -/
def sizeOk (n : Nat) : Bool := decide (1 ≤ n) && decide (n ≤ 4294967296)

/-- R22: no cell outside `[0, size)` is listed. -/
def Memory.inside (m : Memory) (size : Nat) : Bool := m.all fun c => decide (c.1 < size)

/-- The parameters of a session: a legal `MEM_SIZE` and an `INIT_MEM` in canonical form inside it. -/
def configOk (c : Config) : Bool :=
  sizeOk c.memSize && Memory.wf c.initMem && Memory.inside c.initMem c.memSize

/-- The invariant of every state a session reaches: a legal `MEM_SIZE`, memory in canonical form and inside
`[0, MEM_SIZE)`. Registers, `pc` and flags may hold anything (R11, R17). The canonical form is the model's choice of
representation (DEDUCED; notes/assumptions/3.md). -/
def State.Inv (s : State) : Prop :=
  sizeOk s.memSize = true ∧ Memory.wf s.mem = true ∧ Memory.inside s.mem s.memSize = true

/-- A state no fault has stopped (R8, R21: a fault is the only abnormal end). -/
def State.safe (s : State) : Bool :=
  match s.status with
  | .faulted _ _ => false
  | _ => true

/-- A run is safe when it reports no fault. -/
def RunReport.safe (r : RunReport) : Bool := r.final.safe

end Sys2Proof.Machine
end

