-- ==== Sys2Proof/Certificates/Slice0/Obligations.lean ====
section
/-! DEFINITION. The statements for the provers, and the words they share. The shared words are written from the spec's own
formulas, not from the model's definitions, wherever the two could differ. -/

namespace Sys2Proof.Claims

open Sys2Proof Sys2Proof.Machine

/-- The decoder reads the Word whose number is `w` as the instruction `i`. -/
def Spells (w : Nat) (i : Instr) : Prop := decode (BitVec.ofNat 32 w) = .ok i

/-- R176: nothing but `status` differs. -/
def afterFault (s : State) (r : FaultReason) (info : Word) : State := { s with status := .faulted r info }

/-- R81, R82: one register written, default advance. -/
def afterMove (s : State) (rd : Reg) (v : Word) : State :=
  { s with regs := s.regs.set rd.val v, pc := s.pc + 1, status := .running }

/-- R96: one register and the four flags written, default advance. -/
def afterAlu (s : State) (rd : Reg) (r : Word) (f : Flags) : State :=
  { s with regs := s.regs.set rd.val r, flags := f, pc := s.pc + 1, status := .running }

/-- R108: the four flags written, default advance. -/
def afterCompare (s : State) (f : Flags) : State := { s with flags := f, pc := s.pc + 1, status := .running }

/-- R120: only `pc` written, in a completed step. -/
def afterJump (s : State) (target : Word) : State := { s with pc := target, status := .running }

/-- R100, R101, R93, R94: the flags of a sum, by the bit formulas. -/
def sumFlags (a b : Word) : Flags :=
  { z := decide (a + b = 0), c := decide (2 ^ 32 ≤ a.toNat + b.toNat),
    v := decide (a.msb = b.msb ∧ (a + b).msb ≠ a.msb), s := (a + b).msb }

/-- R101, R108: the flags of a difference, by the bit formulas. -/
def differenceFlags (a b : Word) : Flags :=
  { z := decide (a - b = 0), c := decide (a.toNat < b.toNat),
    v := decide (a.msb ≠ b.msb ∧ (a - b).msb ≠ a.msb), s := (a - b).msb }

/-- R102 to R104, R106, R107, R109: Z and S from the result, C = V = 0. -/
def fitFlags (r : Word) : Flags := { z := decide (r = 0), c := false, v := false, s := r.msb }

/-- R105: the flags of `a * 2^n`, exact and unbounded. -/
def shlFlags (a : Word) (n : Nat) : Flags :=
  { z := decide (BitVec.ofNat 32 (a.toNat * 2 ^ n) = 0), c := decide (2 ^ 32 ≤ a.toNat * 2 ^ n),
    v := decide (a.toInt * 2 ^ n < -2 ^ 31 ∨ 2 ^ 31 - 1 < a.toInt * 2 ^ n),
    s := (BitVec.ofNat 32 (a.toNat * 2 ^ n)).msb }

/-- R19: the ten arithmetic/logic opcodes. -/
def isAlu (o : Opcode) : Prop :=
  o ∈ ([.add, .sub, .and, .or, .xor, .shl, .shr, .sar, .cmp, .div] : List Opcode)

/-- R15: the opcodes that can give an explicit new `pc`. -/
def isControlTransfer (o : Opcode) : Prop :=
  o ∈ ([.jmp, .jz, .jnz, .jc, .jnc, .jo, .jno, .js, .jns, .call, .ret] : List Opcode)

/-- The opcodes that write no register: `STORE`, `CMP`, the jumps, `RET`, `HALT`. -/
def writesNoRegister (o : Opcode) : Prop :=
  o ∈ ([.store, .cmp, .jmp, .jz, .jnz, .jc, .jnc, .jo, .jno, .js, .jns, .ret, .halt] : List Opcode)

/-- R31, R57: the address of the one data access an instruction makes, computed as its meaning computes it. -/
def dataAddress (i : Instr) (s : State) : Option Word :=
  match i with
  | .loadMem _ a | .storeMem _ a => some (addressMem a)
  | .loadInd _ b | .storeInd _ b => some (addressInd b s)
  | _ => none

/-- R109: the divisor of a `DIV`. -/
def divisor (i : Instr) (s : State) : Option Word :=
  match i with
  | .divReg _ q => some (valueReg q s)
  | .divImm _ n => some (valueImm n)
  | _ => none

/-- R52: the shape an `SB` code names. -/
def shapeOfSB (sb : Nat) : Option Shape :=
  match sb with
  | 0 => some .none
  | 1 => some .register
  | 2 => some .immediate
  | 3 => some .memoryAddress
  | 4 => some .registerIndirect
  | _ => none

/-- R58: the operand list of a Word whose fields pass the tests of R59. -/
def listOfWord (w : Word) : List Operand :=
  let bv := w.extractLsb' 0 16
  (if w.extractLsb' 20 1 = 1 then [.register (Fin.ofNat 8 (w.extractLsb' 16 4).toNat)] else []) ++
    (match (w.extractLsb' 21 3).toNat with
      | 1 => [.register (Fin.ofNat 8 bv.toNat)]
      | 2 => [.immediate bv]
      | 3 => [.memoryAddress bv]
      | 4 => [.registerIndirect (Fin.ofNat 8 bv.toNat)]
      | _ => [])

/-- R59 step 3: one of the six operand tests fails for opcode `o`. -/
def operandTestFails (o : Opcode) (w : Word) : Prop :=
  let sb := w.extractLsb' 21 3
  let sa := w.extractLsb' 20 1
  let ra := w.extractLsb' 16 4
  let bv := w.extractLsb' 0 16
  (sa = 1 ↔ o.declaredA = false) ∨
  (∀ shape ∈ o.declaredB, shapeOfSB sb.toNat ≠ some shape) ∨
  (sa = 0 ∧ ra ≠ 0) ∨
  (sa = 1 ∧ 8 ≤ ra.toNat) ∨
  (sb = 0 ∧ bv ≠ 0) ∨
  ((sb = 1 ∨ sb = 4) ∧ 8 ≤ bv.toNat)

/-- The rows of spec/opcode_table.json: opcode, match, mask. -/
def tableRows : List (Opcode × Word × Word) :=
  [(.mov, 0x01300000, 0xFFF8FFF8),
   (.mov, 0x01500000, 0xFFF80000),
   (.load, 0x02700000, 0xFFF80000),
   (.load, 0x02900000, 0xFFF8FFF8),
   (.store, 0x03700000, 0xFFF80000),
   (.store, 0x03900000, 0xFFF8FFF8),
   (.add, 0x10300000, 0xFFF8FFF8),
   (.add, 0x10500000, 0xFFF80000)] ++
  [(.sub, 0x11300000, 0xFFF8FFF8),
   (.sub, 0x11500000, 0xFFF80000),
   (.and, 0x12300000, 0xFFF8FFF8),
   (.and, 0x12500000, 0xFFF80000),
   (.or, 0x13300000, 0xFFF8FFF8),
   (.or, 0x13500000, 0xFFF80000),
   (.xor, 0x14300000, 0xFFF8FFF8),
   (.xor, 0x14500000, 0xFFF80000)] ++
  [(.shl, 0x15300000, 0xFFF8FFF8),
   (.shl, 0x15500000, 0xFFF80000),
   (.shr, 0x16300000, 0xFFF8FFF8),
   (.shr, 0x16500000, 0xFFF80000),
   (.sar, 0x17300000, 0xFFF8FFF8),
   (.sar, 0x17500000, 0xFFF80000),
   (.cmp, 0x18300000, 0xFFF8FFF8),
   (.cmp, 0x18500000, 0xFFF80000)] ++
  [(.div, 0x19300000, 0xFFF8FFF8),
   (.div, 0x19500000, 0xFFF80000),
   (.jmp, 0x20600000, 0xFFFF0000),
   (.jmp, 0x20800000, 0xFFFFFFF8),
   (.jz, 0x21600000, 0xFFFF0000),
   (.jz, 0x21800000, 0xFFFFFFF8),
   (.jnz, 0x22600000, 0xFFFF0000),
   (.jnz, 0x22800000, 0xFFFFFFF8)] ++
  [(.jc, 0x23600000, 0xFFFF0000),
   (.jc, 0x23800000, 0xFFFFFFF8),
   (.jnc, 0x24600000, 0xFFFF0000),
   (.jnc, 0x24800000, 0xFFFFFFF8),
   (.jo, 0x25600000, 0xFFFF0000),
   (.jo, 0x25800000, 0xFFFFFFF8),
   (.jno, 0x26600000, 0xFFFF0000),
   (.jno, 0x26800000, 0xFFFFFFF8)] ++
  [(.js, 0x27600000, 0xFFFF0000),
   (.js, 0x27800000, 0xFFFFFFF8),
   (.jns, 0x28600000, 0xFFFF0000),
   (.jns, 0x28800000, 0xFFFFFFF8),
   (.call, 0x30700000, 0xFFF80000),
   (.call, 0x30900000, 0xFFF8FFF8),
   (.ret, 0x31100000, 0xFFF8FFFF),
   (.halt, 0xFF000000, 0xFFFFFFFF)]

end Sys2Proof.Claims

open Sys2Proof Sys2Proof.Machine Sys2Proof.Claims

/-! ## Encoding -/

/-- Words of 95_test_vectors.md 2.1 and 2.2, one or more of each family and each shape, decode as the vectors say. The last
word, 0x31200001 (`RET` with `SA = 0`), is no listed vector: R59 gives its fault. -/
def Obligations.VectorWordsDecodeAsListed : Prop :=
  decode 0x01330007 = .ok (.movReg 3 7) ∧ decode 0x01578000 = .ok (.movImm 7 0x8000) ∧
  decode 0x0277FFFF = .ok (.loadMem 7 0xFFFF) ∧ decode 0x03900002 = .ok (.storeInd 0 2) ∧
  decode 0x11310002 = .ok (.subReg 1 2) ∧ decode 0x17500001 = .ok (.sarImm 0 1) ∧
  decode 0x23800003 = .ok (.jcInd 3) ∧ decode 0x28600005 = .ok (.jnsMem 5) ∧
  decode 0x30960005 = .ok (.callInd 6 5) ∧ decode 0x31170000 = .ok (.ret 7) ∧ decode 0xFF000000 = .ok .halt ∧
  decode 0x04E00000 = .error (.invalidOpcode 0x04) ∧ decode 0x31200001 = .error (.invalidOperand 0x31)

/-- Every instruction, with every operand value: no bit of an encoding is dropped. -/
def Obligations.DecodeOfEncodeIsTheInstruction : Prop := ∀ i : Instr, decode (encode i) = .ok i

/-- R55: an instruction has exactly one encoding. -/
def Obligations.ALegalWordIsItsInstructionsOnlyEncoding : Prop :=
  ∀ (w : Word) (i : Instr), decode w = .ok i → w = encode i

/-- R59, the decoder's procedure. -/
def Obligations.DecoderFollowsItsTests : Prop :=
  ∀ w : Word,
    ((∀ o : Opcode, o.code ≠ w.extractLsb' 24 8) → decode w = .error (.invalidOpcode (w.extractLsb' 24 8))) ∧
    ∀ o : Opcode, o.code = w.extractLsb' 24 8 →
      (operandTestFails o w → decode w = .error (.invalidOperand (w.extractLsb' 24 8))) ∧
      (¬ operandTestFails o w → ∃ i, decode w = .ok i ∧ i.opcode = o ∧ i.operands = listOfWord w)

/-- R62, the illegal opcode space, and that nothing else is in it. -/
def Obligations.UnassignedOpcodesAlwaysFault : Prop :=
  ∀ w : Word,
    let op := (w.extractLsb' 24 8).toNat
    (op = 0x00 ∨ (0x04 ≤ op ∧ op ≤ 0x0F) ∨ (0x1A ≤ op ∧ op ≤ 0x1F) ∨ (0x29 ≤ op ∧ op ≤ 0x2F) ∨
        (0x32 ≤ op ∧ op ≤ 0xFE)) ↔
      decode w = .error (.invalidOpcode (w.extractLsb' 24 8))

/-- R65, S7: decode succeeds exactly on the words of a table row, and gives that row's opcode. -/
def Obligations.DecodeSucceedsExactlyOnTableRows : Prop :=
  ∀ (w : Word) (o : Opcode),
    (∃ i, decode w = .ok i ∧ i.opcode = o) ↔ ∃ r ∈ tableRows, r.1 = o ∧ w &&& r.2.2 = r.2.1

/-! ## The step -/

/-- R153: where the Word at `pc` decodes, the step is that instruction's meaning and nothing is added around it. -/
def Obligations.StepRunsTheDecodedInstruction : Prop :=
  ∀ (s : State) (i : Instr), terminal s.status = false → s.pc.toNat < s.memSize →
    decode (s.mem.read s.pc.toNat) = .ok i → step s = exec i s

/-- R171, R133: a fetch outside memory. -/
def Obligations.FetchOutsideMemoryFaults : Prop :=
  ∀ s : State, terminal s.status = false → s.memSize ≤ s.pc.toNat →
    step s = .next (afterFault s .memoryFault s.pc)

/-- R172, R173: the two decode faults and what they record. -/
def Obligations.UndecodableWordsFaultWithTheirOpcode : Prop :=
  ∀ s : State, terminal s.status = false → s.pc.toNat < s.memSize →
    let w := s.mem.read s.pc.toNat
    let op := w.extractLsb' 24 8
    ((∀ o : Opcode, o.code ≠ op) → step s = .next (afterFault s .invalidOpcode (op.setWidth 32))) ∧
    (∀ o : Opcode, o.code = op → operandTestFails o w →
      step s = .next (afterFault s .invalidOperand (op.setWidth 32)))

/-- R156. -/
def Obligations.TerminalStatesAreSticky : Prop :=
  ∀ s : State, (s.status = .halted ∨ ∃ r i, s.status = .faulted r i) →
    step s = .next s ∧ stepReturns s = .next s.status

/-- R155, the table of transitions: which event of the step leads to which status; and the other writer, `reset()`. -/
def Obligations.StatusMovesByTheTable : Prop :=
  ∀ s : State, ∃ t, step s = .next t ∧
    ((s.status = .halted ∨ ∃ r i, s.status = .faulted r i) → t.status = s.status) ∧
    ((s.status = .ready ∨ s.status = .running) →
      let w := s.mem.read s.pc.toNat
      (t.status = .halted ↔ s.pc.toNat < s.memSize ∧ decode w = .ok .halt) ∧
      (t.status = .running ↔ s.pc.toNat < s.memSize ∧ ∃ i, decode w = .ok i ∧ i ≠ .halt ∧
        (∀ ea, dataAddress i s = some ea → ea.toNat < s.memSize) ∧ divisor i s ≠ some 0) ∧
      (t.status = .halted ∨ t.status = .running ∨ ∃ r i, t.status = .faulted r i)) ∧
    s.hostReset.status = .ready ∧
    ∀ base words u, loadProgram base words s = .next u → u.status = s.status

/-- R151, R155: the first step is a step like any other. -/
def Obligations.ReadyAndRunningStepAlike : Prop :=
  ∀ s : State, step { s with status := .ready } = step { s with status := .running }

/-- R176, R177: a fault changes `status` and nothing else, and is what `step()` and the enclosing `run` return. -/
def Obligations.FaultsAreClean : Prop :=
  ∀ (s t : State) (r : FaultReason) (info : Word), terminal s.status = false → step s = .next t →
    t.status = .faulted r info →
      t = afterFault s r info ∧ stepReturns s = .next (.faulted r info) ∧
      ∀ n, run (n + 1) s = .next { result := .faulted r info, steps := 1, final := t }

/-- R171: which accesses fault, and how a fetch fault is told from a data fault. -/
def Obligations.MemoryFaultsNameTheirAccess : Prop :=
  ∀ (s t : State) (info : Word), terminal s.status = false → step s = .next t →
    (t.status = .faulted .memoryFault info ↔
      (s.memSize ≤ s.pc.toNat ∧ info = s.pc) ∨
      (s.pc.toNat < s.memSize ∧ s.memSize ≤ info.toNat ∧
        ∃ i, decode (s.mem.read s.pc.toNat) = .ok i ∧ dataAddress i s = some info)) ∧
    (t.status = .faulted .memoryFault info → (info = s.pc ↔ s.memSize ≤ s.pc.toNat))

/-- R174: the one cause of an ArithmeticFault, and what it records. -/
def Obligations.ArithmeticFaultIsDivisionByZero : Prop :=
  ∀ (s t : State) (info : Word), terminal s.status = false → step s = .next t →
    (t.status = .faulted .arithmeticFault info ↔
      s.pc.toNat < s.memSize ∧ info = 0x19 ∧
        ∃ i, decode (s.mem.read s.pc.toNat) = .ok i ∧ divisor i s = some 0)

/-- R15: the default advance of every completed step that is no control transfer. -/
def Obligations.CompletedStepsAdvancePcByOne : Prop :=
  ∀ (s t : State) (i : Instr), terminal s.status = false → s.pc.toNat < s.memSize →
    decode (s.mem.read s.pc.toNat) = .ok i → step s = .next t → ¬ isControlTransfer i.opcode →
    (t.status = .running ∨ t.status = .halted) → t.pc = s.pc + 1

/-! ## Frames of all instructions -/

/-- R19: flags change in completed arithmetic/logic instructions alone. -/
def Obligations.OnlyAluInstructionsWriteFlags : Prop :=
  ∀ (i : Instr) (s t : State), exec i s = .next t →
    (¬ isAlu i.opcode ∨ (∃ r info, t.status = .faulted r info)) → t.flags = s.flags

/-- R31, R36: memory changes in a completed `STORE` alone, and there in the addressed cell alone. -/
def Obligations.OnlyStoreWritesMemoryAndOnlyItsCell : Prop :=
  ∀ (i : Instr) (s t : State), exec i s = .next t →
    (i.opcode ≠ .store → ∀ a, t.mem.read a = s.mem.read a) ∧
    (i.opcode = .store → ∀ ea, dataAddress i s = some ea → ∀ a, a ≠ ea.toNat → t.mem.read a = s.mem.read a)

/-- R12, R154: at most operand A's register changes, and none where the instruction has no destination register. -/
def Obligations.OnlyOperandAIsWritten : Prop :=
  ∀ (i : Instr) (s t : State), exec i s = .next t →
    (∀ r : Reg, i.operandA ≠ some r → t.getReg r = s.getReg r) ∧
    ((writesNoRegister i.opcode ∨ ∃ r info, t.status = .faulted r info) → ∀ r : Reg, t.getReg r = s.getReg r)

/-- R47: `MEM_SIZE` is fixed for the life of a session. -/
def Obligations.MemSizeNeverChanges : Prop :=
  (∀ s t : State, step s = .next t → t.memSize = s.memSize) ∧
  (∀ (base : Nat) (words : List Word) (s t : State), loadProgram base words s = .next t → t.memSize = s.memSize) ∧
  (∀ (n : Nat) (s : State) (r : RunReport), run n s = .next r → r.final.memSize = s.memSize) ∧
  ∀ s : State, s.hostReset.memSize = s.memSize

/-! ## Invariants, reset and power-on -/

/-- Every step keeps a legal `MEM_SIZE` (20_memory.md R47) and memory inside it (10_state.md R22), and the canonical form of
the memory list, which is the model's choice of representation (DEDUCED; notes/assumptions/3.md) and no rule of the spec. -/
def Obligations.EveryStepKeepsTheInvariant : Prop := ∀ s t : State, s.Inv → step s = .next t → t.Inv

/-- The invariant holds after power-on (R203) with any legal parameters (R47), and in `State.reset`, whose parameters are the
model's choice (DESIGN CHOICE; notes/assumptions/1.md, 2.md). Its canonical-form clause, which the parameters' list must
meet too, is the model's choice of representation (DEDUCED; notes/assumptions/3.md). -/
def Obligations.PowerOnMeetsTheInvariant : Prop :=
  State.reset.Inv ∧ ∀ c : Config, configOk c = true → (State.powerOn c).Inv

/-- The invariant is kept by every host operation (R158, R40, R200), a `run` of any length among them. Its canonical-form
clause is the model's choice of representation (DEDUCED; notes/assumptions/3.md) and no rule of the spec. -/
def Obligations.HostOperationsKeepTheInvariant : Prop :=
  (∀ (n : Nat) (s : State) (r : RunReport), s.Inv → run n s = .next r → r.final.Inv) ∧
  (∀ (base : Nat) (words : List Word) (s t : State), s.Inv → loadProgram base words s = .next t → t.Inv) ∧
  ∀ s : State, s.Inv → s.hostReset.Inv

/-- R200: the whole effect of `reset()`, in any status, and that nothing else leaves a terminal one. -/
def Obligations.ResetZeroesAllButMemory : Prop :=
  ∀ s : State, (∀ r : Reg, s.hostReset.getReg r = 0) ∧ s.hostReset.pc = 0 ∧
    s.hostReset.flags = { z := false, c := false, v := false, s := false } ∧ s.hostReset.status = .ready ∧
    s.hostReset.memSize = s.memSize ∧ (∀ a, s.hostReset.mem.read a = s.mem.read a) ∧
    (terminal s.status = true → step s = .next s ∧ (∀ n r, run n s = .next r → r.final = s) ∧
      ∀ base words t, loadProgram base words s = .next t → t.status = s.status)

/-- R203: power-on is `reset()` applied to a machine whose memory is the argument `INIT_MEM`. -/
def Obligations.PowerOnIsResetWithInitMem : Prop :=
  ∀ (c : Config) (s : State), s.memSize = c.memSize → s.mem = c.initMem → State.powerOn c = s.hostReset

/-- R47, D4: any contents whatever are the memory of some power-on, so that `INIT_MEM` is fixed by nothing. -/
def Obligations.EveryInitialMemoryIsSomePowerOn : Prop :=
  ∀ (n : Nat) (f : Nat → Word), 1 ≤ n → n ≤ 2 ^ 32 →
    ∃ c : Config, configOk c = true ∧ (State.powerOn c).memSize = n ∧
      ∀ a, a < n → (State.powerOn c).mem.read a = f a

/-! ## Operand assembly -/

/-- R56, R57: the four operand values. -/
def Obligations.OperandsAreAssembledAsStated : Prop :=
  (∀ (r : Reg) (s : State), valueReg r s = s.regs[r.val] ∧ addressInd r s = s.regs[r.val]) ∧
  (∀ v : BitVec 16, (valueImm v).toInt = (v.toNat : Int) - 2 ^ 16 * (if v.msb then 1 else 0) ∧
    -32768 ≤ (valueImm v).toInt ∧ (valueImm v).toInt ≤ 32767 ∧
    (valueImm v).extractLsb' 16 16 = (if v.msb then 0xFFFF else 0) ∧ (valueImm v).extractLsb' 0 16 = v) ∧
  ∀ v : BitVec 16, (addressMem v).toNat = v.toNat

/-! ## Data movement -/

/-- R81. -/
def Obligations.MovCopiesItsSource : Prop :=
  ∀ (s : State) (rd rs : Reg) (imm : BitVec 16),
    Spells (0x01300000 + rd.val * 2 ^ 16 + rs.val) (.movReg rd rs) ∧
    Spells (0x01500000 + rd.val * 2 ^ 16 + imm.toNat) (.movImm rd imm) ∧
    exec (.movReg rd rs) s = .next (afterMove s rd s.regs[rs.val]) ∧
    exec (.movImm rd imm) s = .next (afterMove s rd (imm.signExtend 32))

/-- R82. -/
def Obligations.LoadReadsTheAddressedWord : Prop :=
  ∀ (s : State) (rd rb : Reg) (addr : BitVec 16),
    let direct := addr.setWidth 32
    let indirect := s.regs[rb.val]
    Spells (0x02700000 + rd.val * 2 ^ 16 + addr.toNat) (.loadMem rd addr) ∧
    Spells (0x02900000 + rd.val * 2 ^ 16 + rb.val) (.loadInd rd rb) ∧
    (direct.toNat < s.memSize → exec (.loadMem rd addr) s = .next (afterMove s rd (s.mem.read direct.toNat))) ∧
    (indirect.toNat < s.memSize → exec (.loadInd rd rb) s = .next (afterMove s rd (s.mem.read indirect.toNat))) ∧
    (s.memSize ≤ direct.toNat → exec (.loadMem rd addr) s = .next (afterFault s .memoryFault direct)) ∧
    (s.memSize ≤ indirect.toNat → exec (.loadInd rd rb) s = .next (afterFault s .memoryFault indirect))

/-- R83. -/
def Obligations.StoreWritesTheAddressedWord : Prop :=
  ∀ (s : State) (rs rb : Reg) (addr : BitVec 16),
    Spells (0x03700000 + rs.val * 2 ^ 16 + addr.toNat) (.storeMem rs addr) ∧
    Spells (0x03900000 + rs.val * 2 ^ 16 + rb.val) (.storeInd rs rb) ∧
    ∀ (i : Instr) (ea : Word),
      ((i = .storeMem rs addr ∧ ea = addr.setWidth 32) ∨ (i = .storeInd rs rb ∧ ea = s.regs[rb.val])) →
      (ea.toNat < s.memSize → ∃ t, exec i s = .next t ∧
        (∀ a, t.mem.read a = if a = ea.toNat then s.regs[rs.val] else s.mem.read a) ∧
        t.regs = s.regs ∧ t.flags = s.flags ∧ t.pc = s.pc + 1 ∧ t.status = .running ∧ t.memSize = s.memSize) ∧
      (s.memSize ≤ ea.toNat → exec i s = .next (afterFault s .memoryFault ea))

/-- R43, R212: a stored instruction word is what the very next step runs. -/
def Obligations.NextFetchSeesTheStore : Prop :=
  ∀ (s : State) (rs rb : Reg) (j : Instr), terminal s.status = false → s.pc.toNat < s.memSize →
    decode (s.mem.read s.pc.toNat) = .ok (.storeInd rs rb) → s.getReg rb = s.pc + 1 →
    (s.pc + 1).toNat < s.memSize → s.getReg rs = encode j →
    ∃ t, step s = .next t ∧ t.pc = s.pc + 1 ∧ step t = exec j t

/-! ## Arithmetic and logic -/

/-- R100, with R91 to R94 and the source's flag-correctness property. -/
def Obligations.AddWrapsAndSetsFlags : Prop :=
  ∀ (s : State) (rd rs : Reg) (imm : BitVec 16),
    let a := s.regs[rd.val]
    Spells (0x10300000 + rd.val * 2 ^ 16 + rs.val) (.addReg rd rs) ∧
    Spells (0x10500000 + rd.val * 2 ^ 16 + imm.toNat) (.addImm rd imm) ∧
    (let b := s.regs[rs.val]
     exec (.addReg rd rs) s = .next (afterAlu s rd (a + b) (sumFlags a b))) ∧
    (let b := imm.signExtend 32
     exec (.addImm rd imm) s = .next (afterAlu s rd (a + b) (sumFlags a b)))

/-- R101: Carry is the borrow. -/
def Obligations.SubWrapsAndSetsFlags : Prop :=
  ∀ (s : State) (rd rs : Reg) (imm : BitVec 16),
    let a := s.regs[rd.val]
    Spells (0x11300000 + rd.val * 2 ^ 16 + rs.val) (.subReg rd rs) ∧
    Spells (0x11500000 + rd.val * 2 ^ 16 + imm.toNat) (.subImm rd imm) ∧
    (let b := s.regs[rs.val]
     exec (.subReg rd rs) s = .next (afterAlu s rd (a - b) (differenceFlags a b))) ∧
    (let b := imm.signExtend 32
     exec (.subImm rd imm) s = .next (afterAlu s rd (a - b) (differenceFlags a b)))

/-- R108. -/
def Obligations.CmpSetsTheFlagsOfSubAndWritesNoRegister : Prop :=
  ∀ (s : State) (rd rs : Reg) (imm : BitVec 16),
    let a := s.regs[rd.val]
    Spells (0x18300000 + rd.val * 2 ^ 16 + rs.val) (.cmpReg rd rs) ∧
    Spells (0x18500000 + rd.val * 2 ^ 16 + imm.toNat) (.cmpImm rd imm) ∧
    (let b := s.regs[rs.val]
     exec (.cmpReg rd rs) s = .next (afterCompare s (differenceFlags a b))) ∧
    (let b := imm.signExtend 32
     exec (.cmpImm rd imm) s = .next (afterCompare s (differenceFlags a b)))

/-- R108: what the flags of a compare say of the two operands. -/
def Obligations.CmpFlagsOrderTheOperands : Prop :=
  ∀ (s : State) (rd rs : Reg) (imm : BitVec 16) (i : Instr) (b : Word),
    ((i = .cmpReg rd rs ∧ b = s.regs[rs.val]) ∨ (i = .cmpImm rd imm ∧ b = imm.signExtend 32)) →
    ∃ t, exec i s = .next t ∧
      (t.flags.z = true ↔ s.regs[rd.val] = b) ∧
      (t.flags.c = true ↔ s.regs[rd.val].toNat < b.toNat) ∧
      (t.flags.s ≠ t.flags.v ↔ s.regs[rd.val].toInt < b.toInt)

/-- R102, R103, R104. -/
def Obligations.LogicInstructionsAreBitwise : Prop :=
  ∀ (s : State) (rd rs : Reg) (imm : BitVec 16),
    let a := s.regs[rd.val]
    let b := s.regs[rs.val]
    let n := imm.signExtend 32
    Spells (0x12300000 + rd.val * 2 ^ 16 + rs.val) (.andReg rd rs) ∧
    Spells (0x12500000 + rd.val * 2 ^ 16 + imm.toNat) (.andImm rd imm) ∧
    exec (.andReg rd rs) s = .next (afterAlu s rd (a &&& b) (fitFlags (a &&& b))) ∧
    exec (.andImm rd imm) s = .next (afterAlu s rd (a &&& n) (fitFlags (a &&& n))) ∧
    Spells (0x13300000 + rd.val * 2 ^ 16 + rs.val) (.orReg rd rs) ∧
    Spells (0x13500000 + rd.val * 2 ^ 16 + imm.toNat) (.orImm rd imm) ∧
    exec (.orReg rd rs) s = .next (afterAlu s rd (a ||| b) (fitFlags (a ||| b))) ∧
    exec (.orImm rd imm) s = .next (afterAlu s rd (a ||| n) (fitFlags (a ||| n))) ∧
    Spells (0x14300000 + rd.val * 2 ^ 16 + rs.val) (.xorReg rd rs) ∧
    Spells (0x14500000 + rd.val * 2 ^ 16 + imm.toNat) (.xorImm rd imm) ∧
    exec (.xorReg rd rs) s = .next (afterAlu s rd (a ^^^ b) (fitFlags (a ^^^ b))) ∧
    exec (.xorImm rd imm) s = .next (afterAlu s rd (a ^^^ n) (fitFlags (a ^^^ n)))

/-- R105, with the exact, unbounded products. -/
def Obligations.ShlMultipliesByTheUnmaskedPower : Prop :=
  ∀ (s : State) (rd rs : Reg) (imm : BitVec 16),
    let a := s.regs[rd.val]
    Spells (0x15300000 + rd.val * 2 ^ 16 + rs.val) (.shlReg rd rs) ∧
    Spells (0x15500000 + rd.val * 2 ^ 16 + imm.toNat) (.shlImm rd imm) ∧
    (let b := s.regs[rs.val]
     exec (.shlReg rd rs) s = .next (afterAlu s rd (BitVec.ofNat 32 (a.toNat * 2 ^ b.toNat)) (shlFlags a b.toNat))) ∧
    (let b := imm.signExtend 32
     exec (.shlImm rd imm) s = .next (afterAlu s rd (BitVec.ofNat 32 (a.toNat * 2 ^ b.toNat)) (shlFlags a b.toNat)))

/-- R105, "as bits": Carry is "any bit lost", Overflow is "the sign or a significant bit lost". -/
def Obligations.ShlFlagsAsBits : Prop :=
  ∀ (s : State) (rd rs : Reg),
    let a := s.regs[rd.val].toNat
    let n := s.regs[rs.val].toNat
    ∃ t, exec (.shlReg rd rs) s = .next t ∧
      (n = 0 → t.flags.c = false ∧ t.flags.v = false) ∧
      (1 ≤ n → n ≤ 31 → (t.flags.c = true ↔ a / 2 ^ (32 - n) ≠ 0) ∧
        (t.flags.v = true ↔ a / 2 ^ (31 - n) ≠ 0 ∧ a / 2 ^ (31 - n) ≠ 2 ^ (n + 1) - 1)) ∧
      (32 ≤ n → t.getReg rd = 0 ∧ t.flags.z = true ∧ (t.flags.c = true ↔ a ≠ 0) ∧ (t.flags.v = true ↔ a ≠ 0))

/-- R106. -/
def Obligations.ShrDividesUnsignedByThePower : Prop :=
  ∀ (s : State) (rd rs : Reg) (imm : BitVec 16),
    let a := s.regs[rd.val]
    Spells (0x16300000 + rd.val * 2 ^ 16 + rs.val) (.shrReg rd rs) ∧
    Spells (0x16500000 + rd.val * 2 ^ 16 + imm.toNat) (.shrImm rd imm) ∧
    (let b := s.regs[rs.val]
     exec (.shrReg rd rs) s = .next (afterAlu s rd (BitVec.ofNat 32 (a.toNat / 2 ^ b.toNat)) (fitFlags (BitVec.ofNat 32 (a.toNat / 2 ^ b.toNat))))) ∧
    (let b := imm.signExtend 32
     exec (.shrImm rd imm) s = .next (afterAlu s rd (BitVec.ofNat 32 (a.toNat / 2 ^ b.toNat)) (fitFlags (BitVec.ofNat 32 (a.toNat / 2 ^ b.toNat)))))

/-- R107: `Int.fdiv` rounds toward minus infinity. -/
def Obligations.SarDividesSignedByThePowerRoundingDown : Prop :=
  ∀ (s : State) (rd rs : Reg) (imm : BitVec 16),
    let a := s.regs[rd.val]
    Spells (0x17300000 + rd.val * 2 ^ 16 + rs.val) (.sarReg rd rs) ∧
    Spells (0x17500000 + rd.val * 2 ^ 16 + imm.toNat) (.sarImm rd imm) ∧
    (let b := s.regs[rs.val]
     exec (.sarReg rd rs) s = .next (afterAlu s rd (BitVec.ofInt 32 (Int.fdiv a.toInt (2 ^ b.toNat)))
      (fitFlags (BitVec.ofInt 32 (Int.fdiv a.toInt (2 ^ b.toNat)))))) ∧
    (let b := imm.signExtend 32
     exec (.sarImm rd imm) s = .next (afterAlu s rd (BitVec.ofInt 32 (Int.fdiv a.toInt (2 ^ b.toNat)))
      (fitFlags (BitVec.ofInt 32 (Int.fdiv a.toInt (2 ^ b.toNat))))))

/-- R106, R107, 93_implementation_defined.md section 3: counts of the full width and more, and the sign `SAR` keeps. -/
def Obligations.WideRightShiftsSaturate : Prop :=
  ∀ (s : State) (rd rs : Reg),
    let a := s.regs[rd.val]
    let n := s.regs[rs.val].toNat
    (∃ t, exec (.shrReg rd rs) s = .next t ∧ (32 ≤ n → t.getReg rd = 0 ∧ t.flags.z = true)) ∧
    ∃ t, exec (.sarReg rd rs) s = .next t ∧ t.flags.s = a.msb ∧
      (31 ≤ n → t.getReg rd = if a.msb then 0xFFFFFFFF else 0)

/-- R109. -/
def Obligations.DivGivesTheUnsignedQuotientOrFaults : Prop :=
  ∀ (s : State) (rd rs : Reg) (imm : BitVec 16),
    Spells (0x19300000 + rd.val * 2 ^ 16 + rs.val) (.divReg rd rs) ∧
    Spells (0x19500000 + rd.val * 2 ^ 16 + imm.toNat) (.divImm rd imm) ∧
    ∀ (i : Instr) (b : Word),
      ((i = .divReg rd rs ∧ b = s.regs[rs.val]) ∨ (i = .divImm rd imm ∧ b = imm.signExtend 32)) →
      (b ≠ 0 → exec i s = .next (afterAlu s rd (BitVec.ofNat 32 (s.regs[rd.val].toNat / b.toNat))
        (fitFlags (BitVec.ofNat 32 (s.regs[rd.val].toNat / b.toNat))))) ∧
      (b = 0 → exec i s = .next (afterFault s .arithmeticFault 0x19))

/-- R91, R92: Zero and Sign describe the result that was written, in every completed instruction of the ten but `CMP`. -/
def Obligations.ZeroAndSignDescribeTheResult : Prop :=
  ∀ (i : Instr) (s t : State) (rd : Reg), exec i s = .next t → isAlu i.opcode → i.opcode ≠ .cmp →
    i.operandA = some rd → t.status = .running →
    t.flags.z = decide (t.getReg rd = 0) ∧ t.flags.s = (t.getReg rd).msb

/-! ## Control transfer and system -/

/-- R121. -/
def Obligations.JmpGoesToItsTarget : Prop :=
  ∀ (s : State) (rb : Reg) (addr : BitVec 16),
    Spells (0x20600000 + addr.toNat) (.jmpMem addr) ∧ Spells (0x20800000 + rb.val) (.jmpInd rb) ∧
    exec (.jmpMem addr) s = .next (afterJump s (addr.setWidth 32)) ∧
    exec (.jmpInd rb) s = .next (afterJump s s.regs[rb.val])

/-- R122 to R129: each tests its own flag, in both target forms. -/
def Obligations.ConditionalJumpsTestTheirFlag : Prop :=
  ∀ (s : State) (rb : Reg) (addr : BitVec 16),
    let direct := addr.setWidth 32
    let indirect := s.regs[rb.val]
    Spells (0x21600000 + addr.toNat) (.jzMem addr) ∧ Spells (0x21800000 + rb.val) (.jzInd rb) ∧
    exec (.jzMem addr) s = .next (afterJump s (if s.flags.z = true then direct else s.pc + 1)) ∧
    exec (.jzInd rb) s = .next (afterJump s (if s.flags.z = true then indirect else s.pc + 1)) ∧
    Spells (0x22600000 + addr.toNat) (.jnzMem addr) ∧ Spells (0x22800000 + rb.val) (.jnzInd rb) ∧
    exec (.jnzMem addr) s = .next (afterJump s (if s.flags.z = false then direct else s.pc + 1)) ∧
    exec (.jnzInd rb) s = .next (afterJump s (if s.flags.z = false then indirect else s.pc + 1)) ∧
    Spells (0x23600000 + addr.toNat) (.jcMem addr) ∧ Spells (0x23800000 + rb.val) (.jcInd rb) ∧
    exec (.jcMem addr) s = .next (afterJump s (if s.flags.c = true then direct else s.pc + 1)) ∧
    exec (.jcInd rb) s = .next (afterJump s (if s.flags.c = true then indirect else s.pc + 1)) ∧
    Spells (0x24600000 + addr.toNat) (.jncMem addr) ∧ Spells (0x24800000 + rb.val) (.jncInd rb) ∧
    exec (.jncMem addr) s = .next (afterJump s (if s.flags.c = false then direct else s.pc + 1)) ∧
    exec (.jncInd rb) s = .next (afterJump s (if s.flags.c = false then indirect else s.pc + 1)) ∧
    Spells (0x25600000 + addr.toNat) (.joMem addr) ∧ Spells (0x25800000 + rb.val) (.joInd rb) ∧
    exec (.joMem addr) s = .next (afterJump s (if s.flags.v = true then direct else s.pc + 1)) ∧
    exec (.joInd rb) s = .next (afterJump s (if s.flags.v = true then indirect else s.pc + 1)) ∧
    Spells (0x26600000 + addr.toNat) (.jnoMem addr) ∧ Spells (0x26800000 + rb.val) (.jnoInd rb) ∧
    exec (.jnoMem addr) s = .next (afterJump s (if s.flags.v = false then direct else s.pc + 1)) ∧
    exec (.jnoInd rb) s = .next (afterJump s (if s.flags.v = false then indirect else s.pc + 1)) ∧
    Spells (0x27600000 + addr.toNat) (.jsMem addr) ∧ Spells (0x27800000 + rb.val) (.jsInd rb) ∧
    exec (.jsMem addr) s = .next (afterJump s (if s.flags.s = true then direct else s.pc + 1)) ∧
    exec (.jsInd rb) s = .next (afterJump s (if s.flags.s = true then indirect else s.pc + 1)) ∧
    Spells (0x28600000 + addr.toNat) (.jnsMem addr) ∧ Spells (0x28800000 + rb.val) (.jnsInd rb) ∧
    exec (.jnsMem addr) s = .next (afterJump s (if s.flags.s = false then direct else s.pc + 1)) ∧
    exec (.jnsInd rb) s = .next (afterJump s (if s.flags.s = false then indirect else s.pc + 1))

/-- R130: the target is read before the link register is written. -/
def Obligations.CallLinksAndJumps : Prop :=
  ∀ (s : State) (rl rb : Reg) (addr : BitVec 16),
    Spells (0x30700000 + rl.val * 2 ^ 16 + addr.toNat) (.callMem rl addr) ∧
    Spells (0x30900000 + rl.val * 2 ^ 16 + rb.val) (.callInd rl rb) ∧
    exec (.callMem rl addr) s =
      .next { s with regs := s.regs.set rl.val (s.pc + 1), pc := addr.setWidth 32, status := .running } ∧
    exec (.callInd rl rb) s =
      .next { s with regs := s.regs.set rl.val (s.pc + 1), pc := s.regs[rb.val], status := .running }

/-- R131. -/
def Obligations.RetGoesToItsRegister : Prop :=
  ∀ (s : State) (rl : Reg),
    Spells (0x31100000 + rl.val * 2 ^ 16) (.ret rl) ∧ exec (.ret rl) s = .next (afterJump s s.regs[rl.val])

/-- R71: the identities the rules give. -/
def Obligations.InstructionIdentities : Prop :=
  ∀ (s : State) (r : Reg),
    exec (.movReg r r) s = .next (afterJump s (s.pc + 1)) ∧
    exec (.xorReg r r) s = .next (afterAlu s r 0 { z := true, c := false, v := false, s := false }) ∧
    exec (.subReg r r) s = .next (afterAlu s r 0 { z := true, c := false, v := false, s := false }) ∧
    exec (.cmpReg r r) s = .next (afterCompare s { z := true, c := false, v := false, s := false }) ∧
    exec (.ret r) s = exec (.jmpInd r) s

/-- R133: a target outside memory is no fault of the jump; the next step faults at its fetch, with `pc` at the target. -/
def Obligations.BadTargetsFaultAtTheNextFetch : Prop :=
  ∀ (i : Instr) (s : State), isControlTransfer i.opcode →
    ∃ t, exec i s = .next t ∧ t.status = .running ∧
      (s.memSize ≤ t.pc.toNat → step t = .next (afterFault t .memoryFault t.pc))

/-- R140: `HALT`, and that the state it leaves is final. -/
def Obligations.HaltAdvancesAndStops : Prop :=
  Spells 0xFF000000 .halt ∧
  (∀ w : Word, w.extractLsb' 24 8 = 0xFF → w ≠ 0xFF000000 → decode w = .error (.invalidOperand 0xFF)) ∧
  ∀ s : State, exec .halt s = .next { s with pc := s.pc + 1, status := .halted } ∧
    step { s with pc := s.pc + 1, status := .halted } = .next { s with pc := s.pc + 1, status := .halted } ∧
    ({ s with pc := s.pc + 1, status := .halted } : State).hostReset.status = .ready

/-! ## Host operations -/

/-- R158: the loop of `run`. -/
def Obligations.RunFollowsItsLoop : Prop :=
  ∀ (n : Nat) (s : State),
    (s.status = .halted → run n s = .next { result := .halted, steps := 0, final := s }) ∧
    (∀ r i, s.status = .faulted r i → run n s = .next { result := .faulted r i, steps := 0, final := s }) ∧
    (terminal s.status = false → run 0 s = .next { result := .stepLimitReached, steps := 0, final := s }) ∧
    (terminal s.status = false → ∀ t r, step s = .next t → run n t = .next r →
      run (n + 1) s = .next { r with steps := r.steps + 1 })

/-- R158 to R160, R166: every run returns, within its budget, and its report is the final status. -/
def Obligations.RunReportsHowItEnded : Prop :=
  ∀ (n : Nat) (s : State), ∃ r, run n s = .next r ∧ r.steps ≤ n ∧
    (r.result = .halted ↔ r.final.status = .halted) ∧
    (∀ f i, r.result = .faulted f i ↔ r.final.status = .faulted f i) ∧
    (r.result = .stepLimitReached ↔ terminal r.final.status = false) ∧
    (r.result = .stepLimitReached → r.steps = n)

/-- R158, R159: a run stopped by its budget goes on where it stopped. -/
def Obligations.RunIsResumable : Prop :=
  ∀ (m n : Nat) (s t : State) (r : RunReport),
    run m s = .next { result := .stepLimitReached, steps := m, final := t } → run n t = .next r →
    run (m + n) s = .next { r with steps := m + r.steps }

/-- R40: `loadProgram`, outside `Running`. -/
def Obligations.LoadProgramIsAllOrNothing : Prop :=
  ∀ (base : Nat) (words : List Word) (s : State), s.status ≠ .running →
    (s.memSize < base + words.length → loadProgram base words s = .fault .loadOutOfBounds) ∧
    (base + words.length ≤ s.memSize → ∃ t, loadProgram base words s = .next t ∧
      (∀ i, (h : i < words.length) → t.mem.read (base + i) = words[i]) ∧
      (∀ a, (a < base ∨ base + words.length ≤ a) → t.mem.read a = s.mem.read a) ∧
      t.regs = s.regs ∧ t.pc = s.pc ∧ t.flags = s.flags ∧ t.status = s.status ∧ t.memSize = s.memSize)

/-- R204: neither of `reset()` and `loadProgram` disturbs what the other sets. -/
def Obligations.ResetAndLoadCommute : Prop :=
  ∀ (base : Nat) (words : List Word) (s t : State), loadProgram base words s = .next t →
    loadProgram base words s.hostReset = .next t.hostReset

/-- notes/assumptions/6.md, the model's own: the host's way to place an instruction makes the very next step run it. -/
def Obligations.WithFetchWordRunsTheInstruction : Prop :=
  ∀ (s : State) (i : Instr), step (s.withFetchWord 32 (encode i).toNat) = exec i (s.withFetchWord 32 (encode i).toNat)

/-- R163, notes/assumptions/7.md, the model's own: a load between steps of a running machine has no move. -/
def Obligations.LoadWhileRunningIsRefused : Prop :=
  ∀ (base : Nat) (words : List Word) (s : State), s.status = .running →
    loadProgram base words s = .refused .loadWhileRunning
end

