-- ==== Sys2Proof/Laws/Decode.lean ====
section
/-! SUPPORT. The laws of the fields, the opcode map and the operand fields, each way. -/

namespace Sys2Proof

/-! ## Fields (R50, R51) -/

section
variable (op : BitVec 8) (sb : BitVec 3) (sa : BitVec 1) (ra : BitVec 4) (bv : BitVec 16)

theorem packWord_toNat :
    (packWord op sb sa ra bv).toNat =
      op.toNat * 16777216 + sb.toNat * 2097152 + sa.toNat * 1048576 + ra.toNat * 65536 + bv.toNat := by
  have h1 := sb.isLt
  have h2 := sa.isLt
  have h3 := ra.isLt
  have h4 := bv.isLt
  simp only [packWord, BitVec.toNat_append]
  rw [← Nat.shiftLeft_add_eq_or_of_lt (by omega), ← Nat.shiftLeft_add_eq_or_of_lt (by omega),
    ← Nat.shiftLeft_add_eq_or_of_lt (by omega), ← Nat.shiftLeft_add_eq_or_of_lt (by omega)]
  simp only [Nat.shiftLeft_eq]
  omega

theorem fieldOP_packWord : fieldOP (packWord op sb sa ra bv) = op := by
  apply BitVec.eq_of_toNat_eq
  have := sb.isLt; have := sa.isLt; have := ra.isLt; have := bv.isLt; have := op.isLt
  simp only [fieldOP, BitVec.extractLsb'_toNat, packWord_toNat, Nat.shiftRight_eq_div_pow]
  omega

theorem fieldSB_packWord : fieldSB (packWord op sb sa ra bv) = sb := by
  apply BitVec.eq_of_toNat_eq
  have := sb.isLt; have := sa.isLt; have := ra.isLt; have := bv.isLt
  simp only [fieldSB, BitVec.extractLsb'_toNat, packWord_toNat, Nat.shiftRight_eq_div_pow]
  omega

theorem fieldSA_packWord : fieldSA (packWord op sb sa ra bv) = sa := by
  apply BitVec.eq_of_toNat_eq
  have := sb.isLt; have := sa.isLt; have := ra.isLt; have := bv.isLt
  simp only [fieldSA, BitVec.extractLsb'_toNat, packWord_toNat, Nat.shiftRight_eq_div_pow]
  omega

theorem fieldRA_packWord : fieldRA (packWord op sb sa ra bv) = ra := by
  apply BitVec.eq_of_toNat_eq
  have := sb.isLt; have := sa.isLt; have := ra.isLt; have := bv.isLt
  simp only [fieldRA, BitVec.extractLsb'_toNat, packWord_toNat, Nat.shiftRight_eq_div_pow]
  omega

theorem fieldBV_packWord : fieldBV (packWord op sb sa ra bv) = bv := by
  apply BitVec.eq_of_toNat_eq
  have := sb.isLt; have := sa.isLt; have := ra.isLt; have := bv.isLt
  simp only [fieldBV, BitVec.extractLsb'_toNat, packWord_toNat, Nat.shiftRight_eq_div_pow]
  omega

end

/-- Every bit of a Word is in one field. -/
theorem packWord_fields (w : Word) : packWord (fieldOP w) (fieldSB w) (fieldSA w) (fieldRA w) (fieldBV w) = w := by
  apply BitVec.eq_of_toNat_eq
  rw [packWord_toNat]
  have := w.isLt
  simp only [fieldOP, fieldSB, fieldSA, fieldRA, fieldBV, BitVec.extractLsb'_toNat, Nat.shiftRight_eq_div_pow]
  omega

/-! ## The opcode map (R60) -/

theorem opcodeOf_code (o : Opcode) : opcodeOf o.code = some o := by cases o <;> rfl

theorem opcodeOf_eq_some {op : BitVec 8} {o : Opcode} : opcodeOf op = some o ↔ op = o.code := by
  constructor
  · intro h
    exact (by simpa using List.find?_some h : o.code = op).symm
  · rintro rfl; exact opcodeOf_code o

theorem opcodeOf_eq_none {op : BitVec 8} : opcodeOf op = none ↔ ∀ o : Opcode, op ≠ o.code := by
  rw [← not_iff_not, ← ne_eq, Option.ne_none_iff_exists']
  simp [opcodeOf_eq_some]

/-! ## Operand fields (R52 to R55) -/

theorem operandA_eq_some {sa : BitVec 1} {ra : BitVec 4} {a : Option Reg} :
    operandA sa ra = some a ↔ (sa, ra) = fieldsOfA a := by
  revert sa ra a; decide

theorem regOfBV_eq_some {bv : BitVec 16} {r : Reg} : regOfBV bv = some r ↔ bv = BitVec.ofNat 16 r.val := by
  unfold regOfBV
  split
  · next h =>
    simp only [Option.some.injEq, Fin.ext_iff]
    constructor
    · rintro h'; apply BitVec.eq_of_toNat_eq; simp [← h']
    · rintro rfl; simp; omega
  · next h =>
    simp only [reduceCtorEq, false_iff]
    rintro rfl
    exact h (by simp; omega)

theorem operandB_eq_some {sb : BitVec 3} {bv : BitVec 16} {b : Option Operand} :
    operandB sb bv = some b ↔ (sb, bv) = fieldsOfB b := by
  have hsb : sb = 0 ∨ sb = 1 ∨ sb = 2 ∨ sb = 3 ∨ sb = 4 ∨ sb = 5 ∨ sb = 6 ∨ sb = 7 := by revert sb; decide
  rcases hsb with rfl | rfl | rfl | rfl | rfl | rfl | rfl | rfl <;>
    rcases b with _ | (_ | _ | _ | _) <;>
    simp [operandB, fieldsOfB, regOfBV_eq_some]

/-! ## Forms (R61) -/

/-- The form an opcode and operands spell is the one instruction that has them. -/
theorem formOf_eq_some {o : Opcode} {a : Option Reg} {b : Option Operand} {i : Instr} :
    formOf o a b = some i ↔ i.opcode = o ∧ i.operandA = a ∧ i.operandB = b := by
  constructor
  · intro h
    cases o <;> rcases a with _ | a <;> rcases b with _ | (_ | _ | _ | _) <;>
      simp [formOf, valueForm, addressForm, targetForm, registerForm, emptyForm] at h <;> subst h <;>
      exact ⟨rfl, rfl, rfl⟩
  · rintro ⟨rfl, rfl, rfl⟩
    cases i <;> rfl

/-- The opcode and operands of an instruction determine it. -/
theorem Instr.ext_parts {i j : Instr} (ho : i.opcode = j.opcode) (ha : i.operandA = j.operandA)
    (hb : i.operandB = j.operandB) : i = j := by
  have hi : formOf j.opcode j.operandA j.operandB = some i := formOf_eq_some.2 ⟨ho, ha, hb⟩
  have hj : formOf j.opcode j.operandA j.operandB = some j := formOf_eq_some.2 ⟨rfl, rfl, rfl⟩
  exact Option.some.inj (hi.symm.trans hj)

/-- When the decoder yields an instruction, once. -/
theorem decode_eq_ok {w : Word} {i : Instr} :
    decode w = .ok i ↔
      fieldOP w = i.opcode.code ∧ (fieldSA w, fieldRA w) = fieldsOfA i.operandA ∧
        (fieldSB w, fieldBV w) = fieldsOfB i.operandB := by
  unfold decode
  split
  · next h =>
    simp only [reduceCtorEq, false_iff]
    rintro ⟨h1, -, -⟩
    exact opcodeOf_eq_none.1 h _ h1
  · next o h =>
    rw [opcodeOf_eq_some] at h
    rw [← operandA_eq_some, ← operandB_eq_some]
    split
    · next hn =>
      simp only [reduceCtorEq, false_iff]
      rintro ⟨h1, h2, h3⟩
      have ho : i.opcode = o := Option.some.inj (by rw [← opcodeOf_code, ← h1, h, opcodeOf_code])
      rw [h2, Option.bind_some, h3, Option.bind_some, formOf_eq_some.2 ⟨ho, rfl, rfl⟩] at hn
      exact absurd hn (by simp)
    · next j hj =>
      simp only [Option.bind_eq_some_iff, formOf_eq_some] at hj
      obtain ⟨a, ha, b, hb, h1, h2, h3⟩ := hj
      subst h1 h2 h3
      simp only [Except.ok.injEq]
      constructor
      · rintro rfl; exact ⟨h, ha, hb⟩
      · rintro ⟨h1, h2, h3⟩
        have ho : j.opcode = i.opcode := Option.some.inj (by rw [← opcodeOf_code, ← h, h1, opcodeOf_code])
        exact Instr.ext_parts ho (Option.some.inj (ha.symm.trans h2)) (Option.some.inj (hb.symm.trans h3))

end Sys2Proof
end

