-- ==== Sys2Proof/Laws/Word.lean ====
section
/-! SUPPORT. The laws of `wrap` and the two readings of a Word (00_scope.md R7). -/

namespace Sys2Proof

@[simp] theorem wrap_natCast (n : Nat) : wrap (n : Int) = BitVec.ofNat 32 n := by
  simp [wrap]

@[simp] theorem wrap_unsignedOf (a : Word) : wrap (unsignedOf a) = a := by
  simp [wrap, unsignedOf]

@[simp] theorem wrap_signedOf (a : Word) : wrap (signedOf a) = a := by
  simp [wrap, signedOf]

theorem wrap_add (m n : Int) : wrap (m + n) = wrap m + wrap n := BitVec.ofInt_add m n

theorem wrap_mul (m n : Int) : wrap (m * n) = wrap m * wrap n := BitVec.ofInt_mul m n

theorem wrap_sub (m n : Int) : wrap (m - n) = wrap m - wrap n := by
  rw [sub_eq_add_neg, wrap_add, show wrap (-n) = -wrap n from BitVec.ofInt_neg, ← BitVec.sub_eq_add_neg]

theorem wrap_one : wrap 1 = 1 := rfl

end Sys2Proof
end

