-- ==== Sys2Proof/Laws/State.lean ====
section
/-! SUPPORT. One lemma per field per update of State, and the register accessors' laws, so that no later proof unfolds a
record update. -/

namespace Sys2Proof.Machine

@[simp] theorem State.setReg_regs (s : State) (r : Reg) (v : Word) : (s.setReg r v).regs = s.regs.set r.val v := rfl
@[simp] theorem State.setReg_pc (s : State) (r : Reg) (v : Word) : (s.setReg r v).pc = s.pc := rfl
@[simp] theorem State.setReg_flags (s : State) (r : Reg) (v : Word) : (s.setReg r v).flags = s.flags := rfl
@[simp] theorem State.setReg_status (s : State) (r : Reg) (v : Word) : (s.setReg r v).status = s.status := rfl
@[simp] theorem State.setReg_memSize (s : State) (r : Reg) (v : Word) : (s.setReg r v).memSize = s.memSize := rfl
@[simp] theorem State.setReg_mem (s : State) (r : Reg) (v : Word) : (s.setReg r v).mem = s.mem := rfl

@[simp] theorem State.setFlags_regs (s : State) (f : Flags) : (s.setFlags f).regs = s.regs := rfl
@[simp] theorem State.setFlags_pc (s : State) (f : Flags) : (s.setFlags f).pc = s.pc := rfl
@[simp] theorem State.setFlags_flags (s : State) (f : Flags) : (s.setFlags f).flags = f := rfl
@[simp] theorem State.setFlags_status (s : State) (f : Flags) : (s.setFlags f).status = s.status := rfl
@[simp] theorem State.setFlags_memSize (s : State) (f : Flags) : (s.setFlags f).memSize = s.memSize := rfl
@[simp] theorem State.setFlags_mem (s : State) (f : Flags) : (s.setFlags f).mem = s.mem := rfl

@[simp] theorem State.jump_regs (s : State) (t : Word) : (s.jump t).regs = s.regs := rfl
@[simp] theorem State.jump_pc (s : State) (t : Word) : (s.jump t).pc = t := rfl
@[simp] theorem State.jump_flags (s : State) (t : Word) : (s.jump t).flags = s.flags := rfl
@[simp] theorem State.jump_status (s : State) (t : Word) : (s.jump t).status = .running := rfl
@[simp] theorem State.jump_memSize (s : State) (t : Word) : (s.jump t).memSize = s.memSize := rfl
@[simp] theorem State.jump_mem (s : State) (t : Word) : (s.jump t).mem = s.mem := rfl

@[simp] theorem State.advance_regs (s : State) : s.advance.regs = s.regs := rfl
@[simp] theorem State.advance_pc (s : State) : s.advance.pc = s.nextPc := rfl
@[simp] theorem State.advance_flags (s : State) : s.advance.flags = s.flags := rfl
@[simp] theorem State.advance_status (s : State) : s.advance.status = .running := rfl
@[simp] theorem State.advance_memSize (s : State) : s.advance.memSize = s.memSize := rfl
@[simp] theorem State.advance_mem (s : State) : s.advance.mem = s.mem := rfl

@[simp] theorem State.halt_regs (s : State) : s.halt.regs = s.regs := rfl
@[simp] theorem State.halt_pc (s : State) : s.halt.pc = s.nextPc := rfl
@[simp] theorem State.halt_flags (s : State) : s.halt.flags = s.flags := rfl
@[simp] theorem State.halt_status (s : State) : s.halt.status = .halted := rfl
@[simp] theorem State.halt_memSize (s : State) : s.halt.memSize = s.memSize := rfl
@[simp] theorem State.halt_mem (s : State) : s.halt.mem = s.mem := rfl

@[simp] theorem State.raise_regs (s : State) (f : FaultReport) : (s.raise f).regs = s.regs := rfl
@[simp] theorem State.raise_pc (s : State) (f : FaultReport) : (s.raise f).pc = s.pc := rfl
@[simp] theorem State.raise_flags (s : State) (f : FaultReport) : (s.raise f).flags = s.flags := rfl
@[simp] theorem State.raise_status (s : State) (f : FaultReport) : (s.raise f).status = .faulted f.reason f.info := rfl
@[simp] theorem State.raise_memSize (s : State) (f : FaultReport) : (s.raise f).memSize = s.memSize := rfl
@[simp] theorem State.raise_mem (s : State) (f : FaultReport) : (s.raise f).mem = s.mem := rfl

@[simp] theorem State.hostReset_regs (s : State) : s.hostReset.regs = Vector.replicate 8 0 := rfl
@[simp] theorem State.hostReset_pc (s : State) : s.hostReset.pc = 0 := rfl
@[simp] theorem State.hostReset_flags (s : State) : s.hostReset.flags = { z := false, c := false, v := false, s := false } := rfl
@[simp] theorem State.hostReset_status (s : State) : s.hostReset.status = .ready := rfl
@[simp] theorem State.hostReset_memSize (s : State) : s.hostReset.memSize = s.memSize := rfl
@[simp] theorem State.hostReset_mem (s : State) : s.hostReset.mem = s.mem := rfl

@[simp] theorem State.powerOn_regs (c : Config) : (State.powerOn c).regs = Vector.replicate 8 0 := rfl
@[simp] theorem State.powerOn_pc (c : Config) : (State.powerOn c).pc = 0 := rfl
@[simp] theorem State.powerOn_flags (c : Config) : (State.powerOn c).flags = { z := false, c := false, v := false, s := false } := rfl
@[simp] theorem State.powerOn_status (c : Config) : (State.powerOn c).status = .ready := rfl
@[simp] theorem State.powerOn_memSize (c : Config) : (State.powerOn c).memSize = c.memSize := rfl
@[simp] theorem State.powerOn_mem (c : Config) : (State.powerOn c).mem = c.initMem := rfl

/-! ## Reading a register after an update -/

@[simp] theorem State.getReg_setReg_same (s : State) (r : Reg) (v : Word) : (s.setReg r v).getReg r = v := by
  simp [State.getReg, State.setReg]

theorem State.getReg_setReg_ne (s : State) {r q : Reg} (v : Word) (h : q ≠ r) :
    (s.setReg r v).getReg q = s.getReg q := by
  have hv : r.val ≠ q.val := fun e => h (Fin.ext e.symm)
  simp [State.getReg, State.setReg, hv]

theorem State.getReg_setReg (s : State) (r q : Reg) (v : Word) :
    (s.setReg r v).getReg q = if q = r then v else s.getReg q := by
  split
  · next h => subst h; simp
  · next h => exact s.getReg_setReg_ne v h

theorem State.getReg_congr {s t : State} (h : t.regs = s.regs) (r : Reg) : t.getReg r = s.getReg r := by
  simp only [State.getReg, h]

@[simp] theorem State.getReg_setFlags (s : State) (f : Flags) (r : Reg) : (s.setFlags f).getReg r = s.getReg r := rfl
@[simp] theorem State.getReg_jump (s : State) (t : Word) (r : Reg) : (s.jump t).getReg r = s.getReg r := rfl
@[simp] theorem State.getReg_advance (s : State) (r : Reg) : s.advance.getReg r = s.getReg r := rfl
@[simp] theorem State.getReg_halt (s : State) (r : Reg) : s.halt.getReg r = s.getReg r := rfl
@[simp] theorem State.getReg_raise (s : State) (f : FaultReport) (r : Reg) : (s.raise f).getReg r = s.getReg r := rfl
@[simp] theorem State.getReg_withMem (s : State) (m : Memory) (r : Reg) :
    { s with mem := m }.getReg r = s.getReg r := rfl

@[simp] theorem State.getReg_hostReset (s : State) (r : Reg) : s.hostReset.getReg r = 0 := by
  simp [State.getReg, State.hostReset]

/-- Two register files that agree in every register are one. -/
theorem regs_ext {s t : State} (h : ∀ r : Reg, t.getReg r = s.getReg r) : t.regs = s.regs := by
  apply Vector.ext
  intro i hi
  exact h ⟨i, hi⟩

/-! ## The next address -/

/-- R15, R16: the default successor is `pc + 1`, wrapping. -/
@[simp] theorem State.nextPc_eq (s : State) : s.nextPc = s.pc + 1 := by
  rw [State.nextPc, wrap_add, wrap_unsignedOf, wrap_one]

end Sys2Proof.Machine
end

