-- ==== Sys2Proof/Laws/Memory.lean ====
section
/-! SUPPORT. The laws of memory: what a read gives after a write, that every operation keeps the canonical form and the
bounds, and that equal contents are equal lists. -/

namespace Sys2Proof.Machine

/-! ## Reads -/

@[simp] theorem Memory.read_nil (a : Nat) : Memory.read [] a = Config.fillWord := rfl

theorem Memory.read_cons (c : Nat × Word) (m : Memory) (a : Nat) :
    Memory.read (c :: m) a = if c.1 = a then c.2 else Memory.read m a := rfl

theorem Memory.read_of_absent {m : Memory} {a : Nat} (h : ∀ c ∈ m, c.1 ≠ a) : Memory.read m a = Config.fillWord := by
  induction m with
  | nil => rfl
  | cons c m ih =>
    rw [Memory.read_cons, if_neg (h c (by simp))]
    exact ih fun d hd => h d (by simp [hd])

theorem Memory.read_erase (m : Memory) (a b : Nat) :
    (m.erase a).read b = if b = a then Config.fillWord else m.read b := by
  induction m with
  | nil => simp [Memory.erase]
  | cons c m ih =>
    by_cases hc : c.1 = a
    · have : Memory.erase (c :: m) a = Memory.erase m a := by simp [Memory.erase, hc]
      rw [this, ih, Memory.read_cons]
      by_cases hb : b = a
      · simp [hb]
      · have hcb : c.1 ≠ b := fun e => hb (e.symm.trans hc)
        simp [hb, hcb]
    · have : Memory.erase (c :: m) a = c :: Memory.erase m a := by simp [Memory.erase, hc]
      rw [this, Memory.read_cons, ih, Memory.read_cons]
      by_cases hb : b = a
      · subst hb; simp [hc]
      · simp [hb]

theorem Memory.mem_erase {m : Memory} {a : Nat} {c : Nat × Word} : c ∈ m.erase a ↔ c ∈ m ∧ c.1 ≠ a := by
  simp [Memory.erase]

theorem Memory.read_insert {m : Memory} {a : Nat} (v : Word) (h : ∀ c ∈ m, c.1 ≠ a) (b : Nat) :
    (Memory.insert a v m).read b = if b = a then v else m.read b := by
  induction m with
  | nil => simp [Memory.insert, Memory.read_cons, eq_comm]
  | cons c m ih =>
    unfold Memory.insert
    split
    · simp [Memory.read_cons (a, v), eq_comm]
    · rw [Memory.read_cons, Memory.read_cons, ih fun d hd => h d (by simp [hd])]
      by_cases hb : b = a
      · subst hb; simp [h c (by simp)]
      · simp [hb]

/-- R33, R39: a read after a write, for every address. -/
theorem Memory.read_write (m : Memory) (a : Nat) (v : Word) (b : Nat) :
    (m.write a v).read b = if b = a then v else m.read b := by
  unfold Memory.write
  split
  · next h => rw [Memory.read_erase, h]
  · rw [Memory.read_insert v fun c hc => (Memory.mem_erase.1 hc).2, Memory.read_erase]
    split <;> rfl

@[simp] theorem Memory.read_write_same (m : Memory) (a : Nat) (v : Word) : (m.write a v).read a = v := by
  simp [Memory.read_write]

theorem Memory.read_write_ne (m : Memory) {a b : Nat} (v : Word) (h : b ≠ a) : (m.write a v).read b = m.read b := by
  simp [Memory.read_write, h]

/-- R40: what a load leaves in every cell. -/
theorem Memory.read_load (ws : List Word) (m : Memory) (base b : Nat) :
    (m.load base ws).read b =
      if h : base ≤ b ∧ b < base + ws.length then ws[b - base]'(by omega) else m.read b := by
  induction ws generalizing m base with
  | nil => simp only [Memory.load, List.length_nil]; split <;> [omega; rfl]
  | cons w ws ih =>
    rw [Memory.load, ih, Memory.read_write]
    by_cases hb : b = base
    · subst hb; simp
    · by_cases hin : base ≤ b ∧ b < base + (w :: ws).length
      · obtain ⟨h1, h2⟩ := hin
        simp only [List.length_cons] at h2
        have hk : b - base = (b - (base + 1)) + 1 := by omega
        rw [dif_pos ⟨by omega, by omega⟩, dif_pos ⟨h1, by simpa using h2⟩]
        simp [hk]
      · rw [dif_neg (by simp only [List.length_cons] at hin; omega), dif_neg hin, if_neg hb]

/-! ## The canonical form -/

theorem Memory.wf_cons {c : Nat × Word} {m : Memory} :
    Memory.wf (c :: m) = true ↔ c.2 ≠ Config.fillWord ∧ (∀ d ∈ m, c.1 < d.1) ∧ Memory.wf m = true := by
  simp [Memory.wf, and_assoc]

theorem Memory.wf_erase {m : Memory} (a : Nat) (h : Memory.wf m = true) : Memory.wf (m.erase a) = true := by
  induction m with
  | nil => rfl
  | cons c m ih =>
    obtain ⟨h1, h2, h3⟩ := Memory.wf_cons.1 h
    by_cases hc : c.1 = a
    · have : Memory.erase (c :: m) a = Memory.erase m a := by simp [Memory.erase, hc]
      rw [this]; exact ih h3
    · have : Memory.erase (c :: m) a = c :: Memory.erase m a := by simp [Memory.erase, hc]
      rw [this]
      exact Memory.wf_cons.2 ⟨h1, fun d hd => h2 d (Memory.mem_erase.1 hd).1, ih h3⟩

theorem Memory.mem_insert {m : Memory} {a : Nat} {v : Word} {c : Nat × Word} :
    c ∈ Memory.insert a v m ↔ c = (a, v) ∨ c ∈ m := by
  induction m with
  | nil => simp [Memory.insert]
  | cons d m ih =>
    unfold Memory.insert
    split
    · simp
    · simp only [List.mem_cons, ih]; tauto

theorem Memory.wf_insert {m : Memory} {a : Nat} {v : Word} (hv : v ≠ Config.fillWord) (ha : ∀ c ∈ m, c.1 ≠ a)
    (h : Memory.wf m = true) : Memory.wf (Memory.insert a v m) = true := by
  induction m with
  | nil => exact Memory.wf_cons.2 ⟨hv, by simp, rfl⟩
  | cons c m ih =>
    obtain ⟨h1, h2, h3⟩ := Memory.wf_cons.1 h
    unfold Memory.insert
    split
    · next hlt =>
      refine Memory.wf_cons.2 ⟨hv, ?_, h⟩
      intro d hd
      rcases List.mem_cons.1 hd with rfl | hd
      · exact hlt
      · exact lt_trans hlt (h2 d hd)
    · next hge =>
      have hca : c.1 < a := lt_of_le_of_ne (not_lt.1 hge) (ha c (by simp))
      refine Memory.wf_cons.2 ⟨h1, ?_, ih (fun d hd => ha d (by simp [hd])) h3⟩
      intro d hd
      rcases Memory.mem_insert.1 hd with rfl | hd
      · exact hca
      · exact h2 d hd

theorem Memory.wf_write {m : Memory} (a : Nat) (v : Word) (h : Memory.wf m = true) :
    Memory.wf (m.write a v) = true := by
  unfold Memory.write
  split
  · exact Memory.wf_erase a h
  · next hv => exact Memory.wf_insert hv (fun c hc => (Memory.mem_erase.1 hc).2) (Memory.wf_erase a h)

theorem Memory.wf_load {m : Memory} (base : Nat) (ws : List Word) (h : Memory.wf m = true) :
    Memory.wf (m.load base ws) = true := by
  induction ws generalizing m base with
  | nil => exact h
  | cons w ws ih => exact ih (base + 1) (Memory.wf_write base w h)

/-! ## The bounds -/

theorem Memory.inside_iff {m : Memory} {n : Nat} : Memory.inside m n = true ↔ ∀ c ∈ m, c.1 < n := by
  simp [Memory.inside]

theorem Memory.inside_write {m : Memory} {n a : Nat} (v : Word) (ha : a < n) (h : Memory.inside m n = true) :
    Memory.inside (m.write a v) n = true := by
  rw [Memory.inside_iff] at h ⊢
  intro c hc
  unfold Memory.write at hc
  split at hc
  · exact h c (Memory.mem_erase.1 hc).1
  · rcases Memory.mem_insert.1 hc with rfl | hc
    · exact ha
    · exact h c (Memory.mem_erase.1 hc).1

theorem Memory.inside_load {m : Memory} {n : Nat} (base : Nat) (ws : List Word) (hb : base + ws.length ≤ n)
    (h : Memory.inside m n = true) : Memory.inside (m.load base ws) n = true := by
  induction ws generalizing m base with
  | nil => exact h
  | cons w ws ih =>
    simp only [List.length_cons] at hb
    exact ih (base + 1) (by omega) (Memory.inside_write w (by omega) h)

/-! ## Equal contents are equal data -/

theorem Memory.read_head_lt {c : Nat × Word} {m : Memory} (h : ∀ d ∈ m, c.1 < d.1) {a : Nat} (ha : a ≤ c.1) :
    Memory.read m a = Config.fillWord :=
  Memory.read_of_absent fun d hd e => absurd (h d hd) (by omega)

theorem Memory.ext {m m' : Memory} (h : Memory.wf m = true) (h' : Memory.wf m' = true)
    (hr : ∀ a, m.read a = m'.read a) : m = m' := by
  induction m generalizing m' with
  | nil =>
    cases m' with
    | nil => rfl
    | cons c m' =>
      obtain ⟨h1, -, -⟩ := Memory.wf_cons.1 h'
      exact absurd (by simpa [Memory.read_cons] using (hr c.1).symm) h1
  | cons c m ih =>
    obtain ⟨h1, h2, h3⟩ := Memory.wf_cons.1 h
    cases m' with
    | nil => exact absurd (by simpa [Memory.read_cons] using hr c.1) h1
    | cons d m' =>
      obtain ⟨k1, k2, k3⟩ := Memory.wf_cons.1 h'
      have hcd : c.1 = d.1 := by
        rcases lt_trichotomy c.1 d.1 with hlt | he | hlt
        · have := hr c.1
          rw [Memory.read_cons, if_pos rfl, Memory.read_cons, if_neg (by omega),
            Memory.read_head_lt k2 (by omega)] at this
          exact absurd this h1
        · exact he
        · have := hr d.1
          rw [Memory.read_cons, if_neg (by omega), Memory.read_cons, if_pos rfl,
            Memory.read_head_lt h2 (by omega)] at this
          exact absurd this.symm k1
      have hval : c.2 = d.2 := by simpa [Memory.read_cons, hcd] using hr c.1
      have hrest : m = m' := by
        refine ih h3 k3 fun a => ?_
        by_cases hac : a = c.1
        · rw [Memory.read_head_lt h2 (by omega), Memory.read_head_lt k2 (by omega)]
        · simpa [Memory.read_cons, Ne.symm hac, hcd ▸ Ne.symm hac] using hr a
      rw [hrest, Prod.ext hcd hval]

end Sys2Proof.Machine
end

