-- ==== Sys2Proof/Laws/Ops.lean ====
section
/-! SUPPORT. What each shared operation can do, once: memory access, the shapes of the meanings, and their answers. -/

namespace Sys2Proof.Machine

/-! ## Memory access (R32) -/

theorem memRead_inside {s : State} {a : Word} (h : a.toNat < s.memSize) : s.memRead a = .ok (s.mem.read a.toNat) :=
  if_neg (by omega)

theorem memRead_outside {s : State} {a : Word} (h : s.memSize ≤ a.toNat) :
    s.memRead a = .error { reason := .memoryFault, info := a } := if_pos h

theorem memRead_eq_ok {s : State} {a v : Word} :
    s.memRead a = .ok v ↔ a.toNat < s.memSize ∧ v = s.mem.read a.toNat := by
  by_cases h : a.toNat < s.memSize
  · simp [memRead_inside h, h, eq_comm]
  · simp [memRead_outside (not_lt.1 h), h]

theorem memRead_eq_error {s : State} {a : Word} {f : FaultReport} :
    s.memRead a = .error f ↔ s.memSize ≤ a.toNat ∧ f = { reason := .memoryFault, info := a } := by
  by_cases h : a.toNat < s.memSize
  · simp [memRead_inside h, h]
  · simp [memRead_outside (not_lt.1 h), not_lt.1 h, eq_comm]

theorem memWrite_inside {s : State} {a : Word} (v : Word) (h : a.toNat < s.memSize) :
    s.memWrite a v = .ok { s with mem := s.mem.write a.toNat v } := if_neg (by omega)

theorem memWrite_outside {s : State} {a : Word} (v : Word) (h : s.memSize ≤ a.toNat) :
    s.memWrite a v = .error { reason := .memoryFault, info := a } := if_pos h

/-! ## The answers of the shared meanings -/

theorem loadFrom_inside {s : State} {ea : Word} (rd : Reg) (h : ea.toNat < s.memSize) :
    loadFrom rd ea s = .next (s.setReg rd (s.mem.read ea.toNat)).advance := by
  simp [loadFrom, memRead_inside h]

theorem loadFrom_outside {s : State} {ea : Word} (rd : Reg) (h : s.memSize ≤ ea.toNat) :
    loadFrom rd ea s = .next (s.raise { reason := .memoryFault, info := ea }) := by
  simp [loadFrom, memRead_outside h]

theorem storeTo_inside {s : State} {ea : Word} (rs : Reg) (h : ea.toNat < s.memSize) :
    storeTo rs ea s = .next { s with mem := s.mem.write ea.toNat (s.getReg rs) }.advance := by
  simp [storeTo, memWrite_inside _ h]

theorem storeTo_outside {s : State} {ea : Word} (rs : Reg) (h : s.memSize ≤ ea.toNat) :
    storeTo rs ea s = .next (s.raise { reason := .memoryFault, info := ea }) := by
  simp [storeTo, memWrite_outside _ h]

/-- A load in one equation. -/
theorem loadFrom_eq (rd : Reg) (ea : Word) (s : State) :
    loadFrom rd ea s = .next (if ea.toNat < s.memSize then (s.setReg rd (s.mem.read ea.toNat)).advance
      else s.raise { reason := .memoryFault, info := ea }) := by
  split
  · next h => exact loadFrom_inside rd h
  · next h => exact loadFrom_outside rd (not_lt.1 h)

/-- A store in one equation. -/
theorem storeTo_eq (rs : Reg) (ea : Word) (s : State) :
    storeTo rs ea s = .next (if ea.toNat < s.memSize
      then { s with mem := s.mem.write ea.toNat (s.getReg rs) }.advance
      else s.raise { reason := .memoryFault, info := ea }) := by
  split
  · next h => exact storeTo_inside rs h
  · next h => exact storeTo_outside rs (not_lt.1 h)

theorem aluDiv_zero (a : Word) : aluDiv a 0 = .error { reason := .arithmeticFault, info := 0x19 } := rfl

theorem aluDiv_nonzero (a : Word) {b : Word} (h : b ≠ 0) :
    aluDiv a b = .ok { result := wrap (Int.fdiv (unsignedOf a) (unsignedOf b)),
                       flags := flagsOfFit (wrap (Int.fdiv (unsignedOf a) (unsignedOf b))) } := by
  have : unsignedOf b ≠ 0 := fun e => h (BitVec.eq_of_toNat_eq (by simpa [unsignedOf] using e))
  simp [aluDiv, this]

/-- A division in one equation. -/
theorem divInto_eq (rd : Reg) (a b : Word) (s : State) :
    aluIntoOrFault rd (aluDiv a b) s = .next (if b = 0 then s.raise { reason := .arithmeticFault, info := 0x19 }
      else ((s.setReg rd (wrap (Int.fdiv (unsignedOf a) (unsignedOf b)))).setFlags
        (flagsOfFit (wrap (Int.fdiv (unsignedOf a) (unsignedOf b))))).advance) := by
  split
  · next h => subst h; rw [aluDiv_zero]; rfl
  · next h => rw [aluDiv_nonzero a h]; rfl

/-! ## The memory instructions and `DIV` as one equation each; every other arm is one by `rfl` -/

theorem exec_loadMem (rd : Reg) (a : BitVec 16) (s : State) :
    exec (.loadMem rd a) s = .next (if (addressMem a).toNat < s.memSize
      then (s.setReg rd (s.mem.read (addressMem a).toNat)).advance
      else s.raise { reason := .memoryFault, info := addressMem a }) := loadFrom_eq _ _ _

theorem exec_loadInd (rd rb : Reg) (s : State) :
    exec (.loadInd rd rb) s = .next (if (addressInd rb s).toNat < s.memSize
      then (s.setReg rd (s.mem.read (addressInd rb s).toNat)).advance
      else s.raise { reason := .memoryFault, info := addressInd rb s }) := loadFrom_eq _ _ _

theorem exec_storeMem (rs : Reg) (a : BitVec 16) (s : State) :
    exec (.storeMem rs a) s = .next (if (addressMem a).toNat < s.memSize
      then { s with mem := s.mem.write (addressMem a).toNat (s.getReg rs) }.advance
      else s.raise { reason := .memoryFault, info := addressMem a }) := storeTo_eq _ _ _

theorem exec_storeInd (rs rb : Reg) (s : State) :
    exec (.storeInd rs rb) s = .next (if (addressInd rb s).toNat < s.memSize
      then { s with mem := s.mem.write (addressInd rb s).toNat (s.getReg rs) }.advance
      else s.raise { reason := .memoryFault, info := addressInd rb s }) := storeTo_eq _ _ _

theorem exec_divReg (rd rs : Reg) (s : State) :
    exec (.divReg rd rs) s = .next (if valueReg rs s = 0 then s.raise { reason := .arithmeticFault, info := 0x19 }
      else ((s.setReg rd (wrap (Int.fdiv (unsignedOf (s.getReg rd)) (unsignedOf (valueReg rs s))))).setFlags
        (flagsOfFit (wrap (Int.fdiv (unsignedOf (s.getReg rd)) (unsignedOf (valueReg rs s)))))).advance) :=
  divInto_eq _ _ _ _

theorem exec_divImm (rd : Reg) (n : BitVec 16) (s : State) :
    exec (.divImm rd n) s = .next (if valueImm n = 0 then s.raise { reason := .arithmeticFault, info := 0x19 }
      else ((s.setReg rd (wrap (Int.fdiv (unsignedOf (s.getReg rd)) (unsignedOf (valueImm n))))).setFlags
        (flagsOfFit (wrap (Int.fdiv (unsignedOf (s.getReg rd)) (unsignedOf (valueImm n)))))).advance) :=
  divInto_eq _ _ _ _

/-! ## What a meaning can answer -/

/-- What a completed meaning may have done to the fields a claim about the whole machine speaks of: it ends in `Running`
or `Halted`, keeps `MEM_SIZE`, and leaves memory alone or writes one existing cell. -/
def Completes (s t : State) : Prop :=
  (t.status = .running ∨ t.status = .halted) ∧ t.memSize = s.memSize ∧
    (t.mem = s.mem ∨ ∃ a v : Word, a.toNat < s.memSize ∧ t.mem = s.mem.write a.toNat v)

theorem loadFrom_cases (rd : Reg) (ea : Word) (s : State) :
    ∃ t, loadFrom rd ea s = .next t ∧ ((∃ f, t = s.raise f) ∨ Completes s t) := by
  by_cases h : ea.toNat < s.memSize
  · exact ⟨_, loadFrom_inside rd h, .inr ⟨.inl rfl, rfl, .inl rfl⟩⟩
  · exact ⟨_, loadFrom_outside rd (not_lt.1 h), .inl ⟨_, rfl⟩⟩

theorem storeTo_cases (rs : Reg) (ea : Word) (s : State) :
    ∃ t, storeTo rs ea s = .next t ∧ ((∃ f, t = s.raise f) ∨ Completes s t) := by
  by_cases h : ea.toNat < s.memSize
  · exact ⟨_, storeTo_inside rs h, .inr ⟨.inl rfl, rfl, .inr ⟨ea, s.getReg rs, h, rfl⟩⟩⟩
  · exact ⟨_, storeTo_outside rs (not_lt.1 h), .inl ⟨_, rfl⟩⟩

theorem aluInto_cases (rd : Reg) (o : AluOut) (s : State) :
    ∃ t, aluInto rd o s = .next t ∧ ((∃ f, t = s.raise f) ∨ Completes s t) :=
  ⟨_, rfl, .inr ⟨.inl rfl, rfl, .inl rfl⟩⟩

theorem aluIntoOrFault_cases (rd : Reg) (r : Except FaultReport AluOut) (s : State) :
    ∃ t, aluIntoOrFault rd r s = .next t ∧ ((∃ f, t = s.raise f) ∨ Completes s t) := by
  cases r with
  | ok o => exact aluInto_cases rd o s
  | error f => exact ⟨_, rfl, .inl ⟨f, rfl⟩⟩

theorem jumpIf_cases (name : FlagName) (wanted : Bool) (ea : Word) (s : State) :
    ∃ t, jumpIf name wanted ea s = .next t ∧ ((∃ f, t = s.raise f) ∨ Completes s t) := by
  refine ⟨_, rfl, .inr ?_⟩
  split <;> exact ⟨.inl rfl, rfl, .inl rfl⟩

/-- Every meaning answers a next state: it takes a fault, or it completes. -/
theorem exec_cases (i : Instr) (s : State) :
    ∃ t, exec i s = .next t ∧ ((∃ f, t = s.raise f) ∨ Completes s t) := by
  cases i
  case loadMem => exact loadFrom_cases _ _ _
  case loadInd => exact loadFrom_cases _ _ _
  case storeMem => exact storeTo_cases _ _ _
  case storeInd => exact storeTo_cases _ _ _
  case divReg => exact aluIntoOrFault_cases _ _ _
  case divImm => exact aluIntoOrFault_cases _ _ _
  case jzMem | jzInd | jnzMem | jnzInd | jcMem | jcInd | jncMem | jncInd => exact jumpIf_cases _ _ _ _
  case joMem | joInd | jnoMem | jnoInd | jsMem | jsInd | jnsMem | jnsInd => exact jumpIf_cases _ _ _ _
  case halt => exact ⟨_, rfl, .inr ⟨.inr rfl, rfl, .inl rfl⟩⟩
  all_goals exact ⟨_, rfl, .inr ⟨.inl rfl, rfl, .inl rfl⟩⟩

end Sys2Proof.Machine
end

