-- ==== Sys2Proof/Laws/Step.lean ====
section
/-! SUPPORT. What one step can do, once (R153). -/

namespace Sys2Proof.Machine

@[simp] theorem terminal_ready : terminal .ready = false := rfl
@[simp] theorem terminal_running : terminal .running = false := rfl
@[simp] theorem terminal_halted : terminal .halted = true := rfl
@[simp] theorem terminal_faulted (r : FaultReason) (i : Word) : terminal (.faulted r i) = true := rfl

theorem terminal_eq_false {st : Status} : terminal st = false ↔ st = .ready ∨ st = .running := by
  cases st <;> simp

/-- The four things a step can be. -/
theorem step_cases (s : State) :
    (terminal s.status = true ∧ step s = .next s) ∨
    (terminal s.status = false ∧ s.memSize ≤ s.pc.toNat ∧
      step s = .next (s.raise { reason := .memoryFault, info := s.pc })) ∨
    (terminal s.status = false ∧ s.pc.toNat < s.memSize ∧
      ∃ d, decode (s.mem.read s.pc.toNat) = .error d ∧ step s = .next (s.raise (decodeReport d))) ∨
    (terminal s.status = false ∧ s.pc.toNat < s.memSize ∧
      ∃ i, decode (s.mem.read s.pc.toNat) = .ok i ∧ step s = exec i s) := by
  cases ht : terminal s.status with
  | true => exact .inl ⟨rfl, by simp [step, ht]⟩
  | false =>
    refine .inr ?_
    by_cases hp : s.pc.toNat < s.memSize
    · refine .inr ?_
      cases hd : decode (s.mem.read s.pc.toNat) with
      | error d => exact .inl ⟨rfl, hp, d, rfl, by simp [step, ht, State.fetch, memRead_inside hp, hd]⟩
      | ok i => exact .inr ⟨rfl, hp, i, rfl, by simp [step, ht, State.fetch, memRead_inside hp, hd]⟩
    · exact .inl ⟨rfl, not_lt.1 hp, by simp [step, ht, State.fetch, memRead_outside (not_lt.1 hp)]⟩

end Sys2Proof.Machine
end

