-- ==== Sys2Proof/Laws/Exec.lean ====
section
/-! SUPPORT. The state each instruction's meaning leaves, as one function with one equation per instruction, so that a claim
about all instructions is a case split and rewriting. -/

namespace Sys2Proof.Machine

/-- The state `exec i s` answers (`exec_eq_next`). -/
def after (i : Instr) (s : State) : State :=
  match exec i s with
  | .next t => t
  | .fault _ => s
  | .refused _ => s

/-- Every meaning answers a next state. -/
theorem exec_eq_next (i : Instr) (s : State) : exec i s = .next (after i s) := by
  obtain ⟨t, ht, -⟩ := exec_cases i s
  simp only [after, ht]

theorem exec_eq_next_iff {i : Instr} {s t : State} : exec i s = .next t ↔ t = after i s := by
  rw [exec_eq_next, Host.Outcome.next.injEq, eq_comm]

theorem after_cases (i : Instr) (s : State) : (∃ f, after i s = s.raise f) ∨ Completes s (after i s) := by
  obtain ⟨t, ht, hc⟩ := exec_cases i s
  rwa [exec_eq_next_iff.1 ht] at hc

theorem after_of_exec {i : Instr} {s t : State} (h : exec i s = .next t) : after i s = t := (exec_eq_next_iff.1 h).symm

section
variable (s : State) (rd rs rb rl : Reg) (imm addr : BitVec 16)

@[simp] theorem after_movReg :
    after (.movReg rd rs) s =
      (s.setReg rd (valueReg rs s)).advance := rfl

@[simp] theorem after_movImm :
    after (.movImm rd imm) s =
      (s.setReg rd (valueImm imm)).advance := rfl

@[simp] theorem after_loadMem :
    after (.loadMem rd addr) s =
      if (addressMem addr).toNat < s.memSize then (s.setReg rd (s.mem.read (addressMem addr).toNat)).advance
      else s.raise { reason := .memoryFault, info := addressMem addr } := after_of_exec (exec_loadMem _ _ _)

@[simp] theorem after_loadInd :
    after (.loadInd rd rb) s =
      if (addressInd rb s).toNat < s.memSize then (s.setReg rd (s.mem.read (addressInd rb s).toNat)).advance
      else s.raise { reason := .memoryFault, info := addressInd rb s } := after_of_exec (exec_loadInd _ _ _)

@[simp] theorem after_storeMem :
    after (.storeMem rs addr) s =
      if (addressMem addr).toNat < s.memSize then { s with mem := s.mem.write (addressMem addr).toNat (s.getReg rs) }.advance
      else s.raise { reason := .memoryFault, info := addressMem addr } := after_of_exec (exec_storeMem _ _ _)

@[simp] theorem after_storeInd :
    after (.storeInd rs rb) s =
      if (addressInd rb s).toNat < s.memSize then { s with mem := s.mem.write (addressInd rb s).toNat (s.getReg rs) }.advance
      else s.raise { reason := .memoryFault, info := addressInd rb s } := after_of_exec (exec_storeInd _ _ _)

@[simp] theorem after_addReg :
    after (.addReg rd rs) s =
      ((s.setReg rd (aluAdd (s.getReg rd) (valueReg rs s)).result).setFlags
      (aluAdd (s.getReg rd) (valueReg rs s)).flags).advance := rfl

@[simp] theorem after_addImm :
    after (.addImm rd imm) s =
      ((s.setReg rd (aluAdd (s.getReg rd) (valueImm imm)).result).setFlags
      (aluAdd (s.getReg rd) (valueImm imm)).flags).advance := rfl

@[simp] theorem after_subReg :
    after (.subReg rd rs) s =
      ((s.setReg rd (aluSub (s.getReg rd) (valueReg rs s)).result).setFlags
      (aluSub (s.getReg rd) (valueReg rs s)).flags).advance := rfl

@[simp] theorem after_subImm :
    after (.subImm rd imm) s =
      ((s.setReg rd (aluSub (s.getReg rd) (valueImm imm)).result).setFlags
      (aluSub (s.getReg rd) (valueImm imm)).flags).advance := rfl

@[simp] theorem after_andReg :
    after (.andReg rd rs) s =
      ((s.setReg rd (aluAnd (s.getReg rd) (valueReg rs s)).result).setFlags
      (aluAnd (s.getReg rd) (valueReg rs s)).flags).advance := rfl

@[simp] theorem after_andImm :
    after (.andImm rd imm) s =
      ((s.setReg rd (aluAnd (s.getReg rd) (valueImm imm)).result).setFlags
      (aluAnd (s.getReg rd) (valueImm imm)).flags).advance := rfl

@[simp] theorem after_orReg :
    after (.orReg rd rs) s =
      ((s.setReg rd (aluOr (s.getReg rd) (valueReg rs s)).result).setFlags
      (aluOr (s.getReg rd) (valueReg rs s)).flags).advance := rfl

@[simp] theorem after_orImm :
    after (.orImm rd imm) s =
      ((s.setReg rd (aluOr (s.getReg rd) (valueImm imm)).result).setFlags
      (aluOr (s.getReg rd) (valueImm imm)).flags).advance := rfl

@[simp] theorem after_xorReg :
    after (.xorReg rd rs) s =
      ((s.setReg rd (aluXor (s.getReg rd) (valueReg rs s)).result).setFlags
      (aluXor (s.getReg rd) (valueReg rs s)).flags).advance := rfl

@[simp] theorem after_xorImm :
    after (.xorImm rd imm) s =
      ((s.setReg rd (aluXor (s.getReg rd) (valueImm imm)).result).setFlags
      (aluXor (s.getReg rd) (valueImm imm)).flags).advance := rfl

@[simp] theorem after_shlReg :
    after (.shlReg rd rs) s =
      ((s.setReg rd (aluShl (s.getReg rd) (valueReg rs s)).result).setFlags
      (aluShl (s.getReg rd) (valueReg rs s)).flags).advance := rfl

@[simp] theorem after_shlImm :
    after (.shlImm rd imm) s =
      ((s.setReg rd (aluShl (s.getReg rd) (valueImm imm)).result).setFlags
      (aluShl (s.getReg rd) (valueImm imm)).flags).advance := rfl

@[simp] theorem after_shrReg :
    after (.shrReg rd rs) s =
      ((s.setReg rd (aluShr (s.getReg rd) (valueReg rs s)).result).setFlags
      (aluShr (s.getReg rd) (valueReg rs s)).flags).advance := rfl

@[simp] theorem after_shrImm :
    after (.shrImm rd imm) s =
      ((s.setReg rd (aluShr (s.getReg rd) (valueImm imm)).result).setFlags
      (aluShr (s.getReg rd) (valueImm imm)).flags).advance := rfl

@[simp] theorem after_sarReg :
    after (.sarReg rd rs) s =
      ((s.setReg rd (aluSar (s.getReg rd) (valueReg rs s)).result).setFlags
      (aluSar (s.getReg rd) (valueReg rs s)).flags).advance := rfl

@[simp] theorem after_sarImm :
    after (.sarImm rd imm) s =
      ((s.setReg rd (aluSar (s.getReg rd) (valueImm imm)).result).setFlags
      (aluSar (s.getReg rd) (valueImm imm)).flags).advance := rfl

@[simp] theorem after_cmpReg :
    after (.cmpReg rd rs) s =
      (s.setFlags (aluSub (s.getReg rd) (valueReg rs s)).flags).advance := rfl

@[simp] theorem after_cmpImm :
    after (.cmpImm rd imm) s =
      (s.setFlags (aluSub (s.getReg rd) (valueImm imm)).flags).advance := rfl

@[simp] theorem after_divReg :
    after (.divReg rd rs) s =
      if valueReg rs s = 0 then s.raise { reason := .arithmeticFault, info := 0x19 }
      else ((s.setReg rd (wrap (Int.fdiv (unsignedOf (s.getReg rd)) (unsignedOf (valueReg rs s))))).setFlags
        (flagsOfFit (wrap (Int.fdiv (unsignedOf (s.getReg rd)) (unsignedOf (valueReg rs s)))))).advance := after_of_exec (exec_divReg _ _ _)

@[simp] theorem after_divImm :
    after (.divImm rd imm) s =
      if valueImm imm = 0 then s.raise { reason := .arithmeticFault, info := 0x19 }
      else ((s.setReg rd (wrap (Int.fdiv (unsignedOf (s.getReg rd)) (unsignedOf (valueImm imm))))).setFlags
        (flagsOfFit (wrap (Int.fdiv (unsignedOf (s.getReg rd)) (unsignedOf (valueImm imm)))))).advance := after_of_exec (exec_divImm _ _ _)

@[simp] theorem after_jmpMem :
    after (.jmpMem addr) s =
      s.jump (addressMem addr) := rfl

@[simp] theorem after_jmpInd :
    after (.jmpInd rb) s =
      s.jump (addressInd rb s) := rfl

@[simp] theorem after_jzMem :
    after (.jzMem addr) s =
      if s.getFlag .zero = true then s.jump (addressMem addr) else s.advance := rfl

@[simp] theorem after_jzInd :
    after (.jzInd rb) s =
      if s.getFlag .zero = true then s.jump (addressInd rb s) else s.advance := rfl

@[simp] theorem after_jnzMem :
    after (.jnzMem addr) s =
      if s.getFlag .zero = false then s.jump (addressMem addr) else s.advance := rfl

@[simp] theorem after_jnzInd :
    after (.jnzInd rb) s =
      if s.getFlag .zero = false then s.jump (addressInd rb s) else s.advance := rfl

@[simp] theorem after_jcMem :
    after (.jcMem addr) s =
      if s.getFlag .carry = true then s.jump (addressMem addr) else s.advance := rfl

@[simp] theorem after_jcInd :
    after (.jcInd rb) s =
      if s.getFlag .carry = true then s.jump (addressInd rb s) else s.advance := rfl

@[simp] theorem after_jncMem :
    after (.jncMem addr) s =
      if s.getFlag .carry = false then s.jump (addressMem addr) else s.advance := rfl

@[simp] theorem after_jncInd :
    after (.jncInd rb) s =
      if s.getFlag .carry = false then s.jump (addressInd rb s) else s.advance := rfl

@[simp] theorem after_joMem :
    after (.joMem addr) s =
      if s.getFlag .overflow = true then s.jump (addressMem addr) else s.advance := rfl

@[simp] theorem after_joInd :
    after (.joInd rb) s =
      if s.getFlag .overflow = true then s.jump (addressInd rb s) else s.advance := rfl

@[simp] theorem after_jnoMem :
    after (.jnoMem addr) s =
      if s.getFlag .overflow = false then s.jump (addressMem addr) else s.advance := rfl

@[simp] theorem after_jnoInd :
    after (.jnoInd rb) s =
      if s.getFlag .overflow = false then s.jump (addressInd rb s) else s.advance := rfl

@[simp] theorem after_jsMem :
    after (.jsMem addr) s =
      if s.getFlag .sign = true then s.jump (addressMem addr) else s.advance := rfl

@[simp] theorem after_jsInd :
    after (.jsInd rb) s =
      if s.getFlag .sign = true then s.jump (addressInd rb s) else s.advance := rfl

@[simp] theorem after_jnsMem :
    after (.jnsMem addr) s =
      if s.getFlag .sign = false then s.jump (addressMem addr) else s.advance := rfl

@[simp] theorem after_jnsInd :
    after (.jnsInd rb) s =
      if s.getFlag .sign = false then s.jump (addressInd rb s) else s.advance := rfl

@[simp] theorem after_callMem :
    after (.callMem rl addr) s =
      (s.setReg rl s.nextPc).jump (addressMem addr) := rfl

@[simp] theorem after_callInd :
    after (.callInd rl rb) s =
      (s.setReg rl s.nextPc).jump (addressInd rb s) := rfl

@[simp] theorem after_ret :
    after (.ret rl) s =
      s.jump (s.getReg rl) := rfl

@[simp] theorem after_halt :
    after (.halt) s =
      s.halt := rfl

end

end Sys2Proof.Machine
end

