-- ==== Sys2Proof/Laws/PerInstr.lean ====
section
/-! SUPPORT. Statements about every instruction as syntax, one lemma per constructor. -/

namespace Sys2Proof.Laws

/-- R61: the opcode and the operand list of an instruction are one of the declared forms. -/
def DeclaredShape.Statement (i : Instr) : Prop := i.wellFormed = true

theorem DeclaredShape.movReg (rd rs : Reg) : DeclaredShape.Statement (.movReg rd rs) := rfl
theorem DeclaredShape.movImm (rd : Reg) (imm : BitVec 16) : DeclaredShape.Statement (.movImm rd imm) := rfl
theorem DeclaredShape.loadMem (rd : Reg) (addr : BitVec 16) : DeclaredShape.Statement (.loadMem rd addr) := rfl
theorem DeclaredShape.loadInd (rd rb : Reg) : DeclaredShape.Statement (.loadInd rd rb) := rfl
theorem DeclaredShape.storeMem (rs : Reg) (addr : BitVec 16) : DeclaredShape.Statement (.storeMem rs addr) := rfl
theorem DeclaredShape.storeInd (rs rb : Reg) : DeclaredShape.Statement (.storeInd rs rb) := rfl
theorem DeclaredShape.addReg (rd rs : Reg) : DeclaredShape.Statement (.addReg rd rs) := rfl
theorem DeclaredShape.addImm (rd : Reg) (imm : BitVec 16) : DeclaredShape.Statement (.addImm rd imm) := rfl
theorem DeclaredShape.subReg (rd rs : Reg) : DeclaredShape.Statement (.subReg rd rs) := rfl
theorem DeclaredShape.subImm (rd : Reg) (imm : BitVec 16) : DeclaredShape.Statement (.subImm rd imm) := rfl
theorem DeclaredShape.andReg (rd rs : Reg) : DeclaredShape.Statement (.andReg rd rs) := rfl
theorem DeclaredShape.andImm (rd : Reg) (imm : BitVec 16) : DeclaredShape.Statement (.andImm rd imm) := rfl
theorem DeclaredShape.orReg (rd rs : Reg) : DeclaredShape.Statement (.orReg rd rs) := rfl
theorem DeclaredShape.orImm (rd : Reg) (imm : BitVec 16) : DeclaredShape.Statement (.orImm rd imm) := rfl
theorem DeclaredShape.xorReg (rd rs : Reg) : DeclaredShape.Statement (.xorReg rd rs) := rfl
theorem DeclaredShape.xorImm (rd : Reg) (imm : BitVec 16) : DeclaredShape.Statement (.xorImm rd imm) := rfl
theorem DeclaredShape.shlReg (rd rs : Reg) : DeclaredShape.Statement (.shlReg rd rs) := rfl
theorem DeclaredShape.shlImm (rd : Reg) (imm : BitVec 16) : DeclaredShape.Statement (.shlImm rd imm) := rfl
theorem DeclaredShape.shrReg (rd rs : Reg) : DeclaredShape.Statement (.shrReg rd rs) := rfl
theorem DeclaredShape.shrImm (rd : Reg) (imm : BitVec 16) : DeclaredShape.Statement (.shrImm rd imm) := rfl
theorem DeclaredShape.sarReg (rd rs : Reg) : DeclaredShape.Statement (.sarReg rd rs) := rfl
theorem DeclaredShape.sarImm (rd : Reg) (imm : BitVec 16) : DeclaredShape.Statement (.sarImm rd imm) := rfl
theorem DeclaredShape.cmpReg (rd rs : Reg) : DeclaredShape.Statement (.cmpReg rd rs) := rfl
theorem DeclaredShape.cmpImm (rd : Reg) (imm : BitVec 16) : DeclaredShape.Statement (.cmpImm rd imm) := rfl
theorem DeclaredShape.divReg (rd rs : Reg) : DeclaredShape.Statement (.divReg rd rs) := rfl
theorem DeclaredShape.divImm (rd : Reg) (imm : BitVec 16) : DeclaredShape.Statement (.divImm rd imm) := rfl
theorem DeclaredShape.jmpMem (addr : BitVec 16) : DeclaredShape.Statement (.jmpMem addr) := rfl
theorem DeclaredShape.jmpInd (rb : Reg) : DeclaredShape.Statement (.jmpInd rb) := rfl
theorem DeclaredShape.jzMem (addr : BitVec 16) : DeclaredShape.Statement (.jzMem addr) := rfl
theorem DeclaredShape.jzInd (rb : Reg) : DeclaredShape.Statement (.jzInd rb) := rfl
theorem DeclaredShape.jnzMem (addr : BitVec 16) : DeclaredShape.Statement (.jnzMem addr) := rfl
theorem DeclaredShape.jnzInd (rb : Reg) : DeclaredShape.Statement (.jnzInd rb) := rfl
theorem DeclaredShape.jcMem (addr : BitVec 16) : DeclaredShape.Statement (.jcMem addr) := rfl
theorem DeclaredShape.jcInd (rb : Reg) : DeclaredShape.Statement (.jcInd rb) := rfl
theorem DeclaredShape.jncMem (addr : BitVec 16) : DeclaredShape.Statement (.jncMem addr) := rfl
theorem DeclaredShape.jncInd (rb : Reg) : DeclaredShape.Statement (.jncInd rb) := rfl
theorem DeclaredShape.joMem (addr : BitVec 16) : DeclaredShape.Statement (.joMem addr) := rfl
theorem DeclaredShape.joInd (rb : Reg) : DeclaredShape.Statement (.joInd rb) := rfl
theorem DeclaredShape.jnoMem (addr : BitVec 16) : DeclaredShape.Statement (.jnoMem addr) := rfl
theorem DeclaredShape.jnoInd (rb : Reg) : DeclaredShape.Statement (.jnoInd rb) := rfl
theorem DeclaredShape.jsMem (addr : BitVec 16) : DeclaredShape.Statement (.jsMem addr) := rfl
theorem DeclaredShape.jsInd (rb : Reg) : DeclaredShape.Statement (.jsInd rb) := rfl
theorem DeclaredShape.jnsMem (addr : BitVec 16) : DeclaredShape.Statement (.jnsMem addr) := rfl
theorem DeclaredShape.jnsInd (rb : Reg) : DeclaredShape.Statement (.jnsInd rb) := rfl
theorem DeclaredShape.callMem (rl : Reg) (addr : BitVec 16) : DeclaredShape.Statement (.callMem rl addr) := rfl
theorem DeclaredShape.callInd (rl rb : Reg) : DeclaredShape.Statement (.callInd rl rb) := rfl
theorem DeclaredShape.ret (rl : Reg) : DeclaredShape.Statement (.ret rl) := rfl
theorem DeclaredShape.halt : DeclaredShape.Statement (.halt) := rfl

theorem DeclaredShape_all (i : Instr) : DeclaredShape.Statement i := by cases i <;> rfl

end Sys2Proof.Laws
end

