-- ==== Sys2Proof/Tests/Slice0.lean ====
section
/-! SUPPORT. The model's own tests. Every expected value is copied from spec/95_test_vectors.md (section named at each group)
or follows from a rule named there; and one witness for the hypotheses of every statement that has some. -/

namespace Sys2Proof.Tests

open Sys2Proof Sys2Proof.Machine Sys2Proof.Claims

/-! ## Helpers -/

/-- No flag set. -/
def noFlags : Flags := { z := false, c := false, v := false, s := false }

/-- Every flag set. -/
def allFlags : Flags := { z := true, c := true, v := true, s := true }

/-- The reset state with some registers and cells set and `w` placed at address `pc`. -/
def before (w : Nat) (pc : Word) (fl : Flags) (xs : List (Reg × Word)) (cells : Memory) : State :=
  State.withFetchWord { State.reset with
    pc := pc, flags := fl, mem := cells,
    regs := xs.foldl (fun v c => v.set c.1.val c.2) State.reset.regs } 32 w

/-- The state after one step. -/
def after1 (s : State) : State :=
  match step s with
  | .next t => t
  | _ => { s with pc := 0xBADBAD }

/-- What the vectors list of one step: a register, `pc`, the flags, `status`. -/
def seen (r : Reg) (s : State) : Word × Word × Flags × Status :=
  let t := after1 s
  (t.getReg r, t.pc, t.flags, t.status)

/-- A one-register state at address 0. -/
def small (w : Nat) (xs : List (Reg × Word)) : State := before w 0 noFlags xs []

/-- The reset state with another `MEM_SIZE` and `w` at address 0. -/
def sized (size : Nat) (w : Nat) : State := State.withFetchWord { State.reset with memSize := size } 32 w

/-! ## WellFormed: one ill-formed term for each check, and terms of all shapes that pass -/

theorem test_arityOk_refuses : arityOk .mov [.register 0] = false ∧ arityOk .halt [.register 0] = false ∧
    arityOk .ret [.register 0, .register 1] = false ∧ arityOk .jmp [.register 0, .memoryAddress 0] = false := by decide
theorem test_operandAOk_refuses : operandAOk .add [.immediate 5, .register 0] = false ∧
    operandAOk .call [.memoryAddress 16] = false ∧ operandAOk .ret [] = false := by decide
theorem test_operandBOk_refuses : operandBOk .add [.register 0, .memoryAddress 5] = false ∧
    operandBOk .load [.register 0, .immediate 5] = false ∧ operandBOk .store [.register 0, .register 1] = false ∧
    operandBOk .jmp [.register 1] = false := by decide
theorem test_wellFormed_refuses : wellFormed .mov [.register 0] = false ∧
    wellFormed .add [.immediate 5, .register 0] = false ∧ wellFormed .add [.register 0, .registerIndirect 1] = false ∧
    wellFormed .halt [.register 0] = false := by decide
theorem test_wellFormed_accepts : wellFormed .mov [.register 0, .immediate 5] = true ∧
    wellFormed .load [.register 0, .registerIndirect 1] = true ∧ wellFormed .jmp [.memoryAddress 2] = true ∧
    wellFormed .ret [.register 7] = true ∧ wellFormed .halt [] = true := by decide

/-! ## Decoding: the legal words of section 2.1, every constructor -/

/-! One word per family written out field by field, `OP ++ SB ++ SA ++ RA ++ BV` (R50). -/

theorem test_decode_fields_data : decode (0x01#8 ++ 0b010#3 ++ 0b1#1 ++ 0b0111#4 ++ 0x8000#16) = .ok (.movImm 7 0x8000) ∧
    decode (0x02#8 ++ 0b100#3 ++ 0b1#1 ++ 0b0000#4 ++ 0x0001#16) = .ok (.loadInd 0 1) ∧
    decode (0x03#8 ++ 0b011#3 ++ 0b1#1 ++ 0b0010#4 ++ 0x0020#16) = .ok (.storeMem 2 0x20) := ⟨rfl, rfl, rfl⟩
theorem test_decode_fields_alu : decode (0x11#8 ++ 0b001#3 ++ 0b1#1 ++ 0b0001#4 ++ 0x0002#16) = .ok (.subReg 1 2) ∧
    decode (0x19#8 ++ 0b010#3 ++ 0b1#1 ++ 0b0010#4 ++ 0x000A#16) = .ok (.divImm 2 10) := ⟨rfl, rfl⟩
theorem test_decode_fields_control : decode (0x21#8 ++ 0b011#3 ++ 0b0#1 ++ 0b0000#4 ++ 0x0009#16) = .ok (.jzMem 9) ∧
    decode (0x23#8 ++ 0b100#3 ++ 0b0#1 ++ 0b0000#4 ++ 0x0003#16) = .ok (.jcInd 3) ∧
    decode (0x30#8 ++ 0b100#3 ++ 0b1#1 ++ 0b0110#4 ++ 0x0005#16) = .ok (.callInd 6 5) ∧
    decode (0x31#8 ++ 0b000#3 ++ 0b1#1 ++ 0b0111#4 ++ 0x0000#16) = .ok (.ret 7) := ⟨rfl, rfl, rfl, rfl⟩
theorem test_decode_fields_system : decode (0xFF#8 ++ 0b000#3 ++ 0b0#1 ++ 0b0000#4 ++ 0x0000#16) = .ok .halt := rfl

theorem test_decode_data_movement :
    decode 0x01330007 = .ok (.movReg 3 7) ∧ decode 0x0150FFFF = .ok (.movImm 0 0xFFFF) ∧
    decode 0x02710010 = .ok (.loadMem 1 0x10) ∧ decode 0x02900001 = .ok (.loadInd 0 1) ∧
    decode 0x03720020 = .ok (.storeMem 2 0x20) ∧ decode 0x03900002 = .ok (.storeInd 0 2) :=
  ⟨rfl, rfl, rfl, rfl, rfl, rfl⟩
theorem test_decode_add_to_xor :
    decode 0x10300000 = .ok (.addReg 0 0) ∧ decode 0x1055FFFF = .ok (.addImm 5 0xFFFF) ∧
    decode 0x11310002 = .ok (.subReg 1 2) ∧ decode 0x11510001 = .ok (.subImm 1 1) ∧
    decode 0x12300001 = .ok (.andReg 0 1) ∧ decode 0x125400FF = .ok (.andImm 4 0xFF) ∧
    decode 0x13360006 = .ok (.orReg 6 6) ∧ decode 0x13500001 = .ok (.orImm 0 1) ∧
    decode 0x14320002 = .ok (.xorReg 2 2) ∧ decode 0x1450FFFF = .ok (.xorImm 0 0xFFFF) :=
  ⟨rfl, rfl, rfl, rfl, rfl, rfl, rfl, rfl, rfl, rfl⟩
theorem test_decode_shl_to_div :
    decode 0x15300001 = .ok (.shlReg 0 1) ∧ decode 0x15500004 = .ok (.shlImm 0 4) ∧
    decode 0x16330004 = .ok (.shrReg 3 4) ∧ decode 0x16500004 = .ok (.shrImm 0 4) ∧
    decode 0x17350006 = .ok (.sarReg 5 6) ∧ decode 0x17500001 = .ok (.sarImm 0 1) ∧
    decode 0x18310000 = .ok (.cmpReg 1 0) ∧ decode 0x18500005 = .ok (.cmpImm 0 5) ∧
    decode 0x19300001 = .ok (.divReg 0 1) ∧ decode 0x1952000A = .ok (.divImm 2 10) :=
  ⟨rfl, rfl, rfl, rfl, rfl, rfl, rfl, rfl, rfl, rfl⟩
theorem test_decode_jumps :
    decode 0x20600002 = .ok (.jmpMem 2) ∧ decode 0x20800007 = .ok (.jmpInd 7) ∧
    decode 0x21600009 = .ok (.jzMem 9) ∧ decode 0x21800001 = .ok (.jzInd 1) ∧
    decode 0x22600001 = .ok (.jnzMem 1) ∧ decode 0x22800000 = .ok (.jnzInd 0) ∧
    decode 0x23600100 = .ok (.jcMem 0x100) ∧ decode 0x23800003 = .ok (.jcInd 3) ∧
    decode 0x24600008 = .ok (.jncMem 8) ∧ decode 0x24800002 = .ok (.jncInd 2) :=
  ⟨rfl, rfl, rfl, rfl, rfl, rfl, rfl, rfl, rfl, rfl⟩
theorem test_decode_flag_jumps_and_calls :
    decode 0x25600000 = .ok (.joMem 0) ∧ decode 0x25800004 = .ok (.joInd 4) ∧
    decode 0x26600003 = .ok (.jnoMem 3) ∧ decode 0x26800005 = .ok (.jnoInd 5) ∧
    decode 0x27600005 = .ok (.jsMem 5) ∧ decode 0x27800006 = .ok (.jsInd 6) ∧
    decode 0x28600005 = .ok (.jnsMem 5) ∧ decode 0x28800007 = .ok (.jnsInd 7) ∧
    decode 0x30770010 = .ok (.callMem 7 0x10) ∧ decode 0x30960005 = .ok (.callInd 6 5) ∧
    decode 0x31100000 = .ok (.ret 0) ∧ decode 0xFF000000 = .ok .halt :=
  ⟨rfl, rfl, rfl, rfl, rfl, rfl, rfl, rfl, rfl, rfl, rfl, rfl⟩
theorem test_decodeTableWord : decodeTableWord 32 0x01500005 = some (.movImm 0 5) ∧
    decodeTableWord 32 0 = none ∧ decodeTableWord 40 0x01500005 = none := by decide

/-! ## Decoding: the words of section 2.2 -/

theorem test_unassigned_opcodes :
    decode 0x00000000 = .error (.invalidOpcode 0x00) ∧ decode 0x04000000 = .error (.invalidOpcode 0x04) ∧
    decode 0x0F300000 = .error (.invalidOpcode 0x0F) ∧ decode 0x1A500005 = .error (.invalidOpcode 0x1A) ∧
    decode 0x29600000 = .error (.invalidOpcode 0x29) ∧ decode 0x32000000 = .error (.invalidOpcode 0x32) ∧
    decode 0xFE000000 = .error (.invalidOpcode 0xFE) ∧ decode 0x04E00000 = .error (.invalidOpcode 0x04) :=
  ⟨rfl, rfl, rfl, rfl, rfl, rfl, rfl, rfl⟩
theorem test_bad_operands_of_data_movement :
    decode 0x01580005 = .error (.invalidOperand 0x01) ∧ decode 0x015F0000 = .error (.invalidOperand 0x01) ∧
    decode 0x01300008 = .error (.invalidOperand 0x01) ∧ decode 0x01300010 = .error (.invalidOperand 0x01) ∧
    decode 0x02900009 = .error (.invalidOperand 0x02) ∧ decode 0x01100000 = .error (.invalidOperand 0x01) ∧
    decode 0x01400005 = .error (.invalidOperand 0x01) ∧ decode 0x02500005 = .error (.invalidOperand 0x02) ∧
    decode 0x03300001 = .error (.invalidOperand 0x03) :=
  ⟨rfl, rfl, rfl, rfl, rfl, rfl, rfl, rfl, rfl⟩
theorem test_bad_shapes :
    decode 0x10700005 = .error (.invalidOperand 0x10) ∧ decode 0x10900001 = .error (.invalidOperand 0x10) ∧
    decode 0x01B00000 = .error (.invalidOperand 0x01) ∧ decode 0x01D00000 = .error (.invalidOperand 0x01) ∧
    decode 0x01F00000 = .error (.invalidOperand 0x01) :=
  ⟨rfl, rfl, rfl, rfl, rfl⟩
theorem test_bad_operands_of_control :
    decode 0x20400005 = .error (.invalidOperand 0x20) ∧ decode 0x20200001 = .error (.invalidOperand 0x20) ∧
    decode 0x20700000 = .error (.invalidOperand 0x20) ∧ decode 0x20610000 = .error (.invalidOperand 0x20) ∧
    decode 0x20800008 = .error (.invalidOperand 0x20) ∧ decode 0x30600010 = .error (.invalidOperand 0x30) ∧
    decode 0x31170001 = .error (.invalidOperand 0x31) ∧ decode 0x31000000 = .error (.invalidOperand 0x31) ∧
    decode 0x31300000 = .error (.invalidOperand 0x31) :=
  ⟨rfl, rfl, rfl, rfl, rfl, rfl, rfl, rfl, rfl⟩
theorem test_bad_operands_of_halt :
    decode 0xFF000001 = .error (.invalidOperand 0xFF) ∧ decode 0xFF100000 = .error (.invalidOperand 0xFF) ∧
    decode 0xFFFFFFFF = .error (.invalidOperand 0xFF) := ⟨rfl, rfl, rfl⟩

/-! ## Data movement: section 3 -/

theorem test_mov_imm : seen 7 (small 0x01578000 []) = (0xFFFF8000, 1, noFlags, .running) := by decide
theorem test_mov_reg : seen 3 (before 0x01330007 0 allFlags [(7, 0xCAFEF00D)] []) =
    (0xCAFEF00D, 1, allFlags, .running) := by decide
theorem test_load_mem : seen 0 (small 0x02700000 []) = (0x02700000, 1, noFlags, .running) := by decide
theorem test_load_mem_last : seen 7 (before 0x0277FFFF 0 noFlags [] [(0xFFFF, 7)]) = (7, 1, noFlags, .running) := by decide
theorem test_load_ind : seen 0 (before 0x02900001 0 noFlags [(1, 0xABCD)] [(0xABCD, 0x80000001)]) =
    (0x80000001, 1, noFlags, .running) := by decide
theorem test_load_ind_same_register : seen 1 (before 0x02910001 0 noFlags [(1, 0x20)] [(0x20, 0x99)]) =
    (0x99, 1, noFlags, .running) := by decide
theorem test_store_mem : (after1 (small 0x03720020 [(2, 0x37)])).mem = [(0, 0x03720020), (0x20, 0x37)] := by decide
theorem test_store_mem_over_itself : (after1 (small 0x03710000 [(1, 0xFF000000)])).mem = [(0, 0xFF000000)] := by decide
theorem test_store_ind : (after1 (small 0x03900002 [(0, 0xDEAD0001), (2, 0x300)])).mem =
    [(0, 0x03900002), (0x300, 0xDEAD0001)] := by decide
theorem test_store_ind_same_register : seen 3 (small 0x03930003 [(3, 0x44)]) = (0x44, 1, noFlags, .running) := by decide

/-! ## Arithmetic and logic: sections 4 and 4.1 -/

theorem test_add_reg : seen 0 (small 0x10300001 [(0, 0x80000000), (1, 0x80000000)]) =
    (0, 1, { z := true, c := true, v := true, s := false }, .running) := by decide
theorem test_add_reg_same : seen 0 (small 0x10300000 [(0, 5)]) = (0xA, 1, noFlags, .running) := by decide
theorem test_add_imm : seen 5 (small 0x1055FFFF [(5, 1)]) =
    (0, 1, { z := true, c := true, v := false, s := false }, .running) := by decide
theorem test_add_imm_no_carry : seen 5 (small 0x1055FFFF []) =
    (0xFFFFFFFF, 1, { z := false, c := false, v := false, s := true }, .running) := by decide
theorem test_sub_reg : seen 1 (small 0x11310002 [(1, 3), (2, 5)]) =
    (0xFFFFFFFE, 1, { z := false, c := true, v := false, s := true }, .running) := by decide
theorem test_sub_reg_overflow : seen 1 (small 0x11310002 [(1, 0x7FFFFFFF), (2, 0xFFFFFFFF)]) =
    (0x80000000, 1, { z := false, c := true, v := true, s := true }, .running) := by decide
theorem test_sub_imm : seen 1 (small 0x11510001 [(1, 0x80000000)]) =
    (0x7FFFFFFF, 1, { z := false, c := false, v := true, s := false }, .running) := by decide
theorem test_and_reg : seen 0 (before 0x12300001 0 allFlags [(0, 0xF0F0F0F0), (1, 0x0FF00FF0)] []) =
    (0x00F000F0, 1, noFlags, .running) := by decide
theorem test_and_imm : seen 2 (small 0x12528000 [(2, 0xFFFF)]) = (0x8000, 1, noFlags, .running) := by decide
theorem test_or_reg : seen 0 (small 0x13300001 [(0, 0x00FF00FF), (1, 0x0F0F0F0F)]) =
    (0x0FFF0FFF, 1, noFlags, .running) := by decide
theorem test_or_imm : seen 0 (small 0x1350FF00 [(0, 0x1234)]) =
    (0xFFFFFF34, 1, { z := false, c := false, v := false, s := true }, .running) := by decide
theorem test_xor_reg : seen 3 (before 0x14330003 0 allFlags [(3, 0x77)] []) =
    (0, 1, { z := true, c := false, v := false, s := false }, .running) := by decide
theorem test_xor_imm : seen 0 (small 0x1450FFFF [(0, 0x12345678)]) =
    (0xEDCBA987, 1, { z := false, c := false, v := false, s := true }, .running) := by decide
theorem test_shl_reg : seen 0 (small 0x15300001 [(0, 1), (1, 0x20)]) =
    (0, 1, { z := true, c := true, v := true, s := false }, .running) := by decide
theorem test_shl_reg_fits : seen 0 (small 0x15300001 [(0, 0xFFFFFFFF), (1, 0x1F)]) =
    (0x80000000, 1, { z := false, c := true, v := false, s := true }, .running) := by decide
theorem test_shl_imm : seen 0 (small 0x15500004 [(0, 0x12345678)]) =
    (0x23456780, 1, { z := false, c := true, v := true, s := false }, .running) := by decide
theorem test_shl_imm_minus_one : seen 0 (small 0x1550FFFF [(0, 5)]) =
    (0, 1, { z := true, c := true, v := true, s := false }, .running) := by decide
theorem test_shr_reg : seen 0 (small 0x16300001 [(0, 0x80000000), (1, 0x20)]) =
    (0, 1, { z := true, c := false, v := false, s := false }, .running) := by decide
theorem test_shr_imm : seen 0 (small 0x16500004 [(0, 0x12345678)]) = (0x01234567, 1, noFlags, .running) := by decide
theorem test_sar_reg : seen 0 (small 0x17300001 [(0, 0x80000000), (1, 0x20)]) =
    (0xFFFFFFFF, 1, { z := false, c := false, v := false, s := true }, .running) := by decide
theorem test_sar_imm : seen 0 (small 0x17500001 [(0, 0xFFFFFFF9)]) =
    (0xFFFFFFFC, 1, { z := false, c := false, v := false, s := true }, .running) := by decide
theorem test_cmp_reg : seen 1 (small 0x18310000 [(0, 1), (1, 0x80000000)]) =
    (0x80000000, 1, { z := false, c := false, v := true, s := false }, .running) := by decide
theorem test_cmp_imm : seen 0 (small 0x18500005 [(0, 3)]) =
    (3, 1, { z := false, c := true, v := false, s := true }, .running) := by decide
theorem test_div_reg : seen 0 (small 0x19300001 [(0, 0x80000000), (1, 0xFFFFFFFF)]) =
    (0, 1, { z := true, c := false, v := false, s := false }, .running) := by decide
theorem test_div_reg_by_zero : seen 0 (before 0x19300001 0 allFlags [(0, 0xA)] []) =
    (0xA, 0, allFlags, .faulted .arithmeticFault 0x19) := by decide
theorem test_div_imm : seen 2 (small 0x1952000A [(2, 0x64)]) = (0xA, 1, noFlags, .running) := by decide
theorem test_div_imm_by_zero : seen 2 (small 0x19520000 [(2, 0x64)]) =
    (0x64, 0, noFlags, .faulted .arithmeticFault 0x19) := by decide

/-! ## Control transfer and system: section 5, and S1's HALT -/

/-- The `pc` after one step from address `pc`. -/
def goes (w : Nat) (pc : Word) (fl : Flags) (xs : List (Reg × Word)) : Word := (after1 (before w pc fl xs [])).pc

theorem test_jmp : goes 0x20600002 0 noFlags [] = 2 ∧ goes 0x20800007 5 noFlags [(7, 0x12345)] = 0x12345 := by decide
theorem test_jz : goes 0x21600009 4 { noFlags with z := true } [] = 9 ∧
    goes 0x21600009 4 { allFlags with z := false } [] = 5 ∧
    goes 0x21800001 4 { noFlags with z := true } [(1, 9)] = 9 := by decide
theorem test_jnz : goes 0x22600001 4 { allFlags with z := false } [] = 1 ∧
    goes 0x22600001 4 { noFlags with z := true } [] = 5 ∧ goes 0x22800000 4 noFlags [(0, 1)] = 1 := by decide
theorem test_jc : goes 0x23800003 2 { noFlags with c := true } [(3, 0x10)] = 0x10 ∧
    goes 0x23800003 2 { allFlags with c := false } [(3, 0x10)] = 3 ∧
    goes 0x23600100 2 { noFlags with c := true } [] = 0x100 := by decide
theorem test_jnc : goes 0x24600008 2 { noFlags with c := true } [] = 3 ∧
    goes 0x24600008 2 { allFlags with c := false } [] = 8 ∧ goes 0x24800002 2 noFlags [(2, 8)] = 8 := by decide
theorem test_jo : goes 0x25600000 7 { noFlags with v := true } [] = 0 ∧
    goes 0x25600000 7 { allFlags with v := false } [] = 8 ∧
    goes 0x25800004 7 { noFlags with v := true } [] = 0 := by decide
theorem test_jno : goes 0x26600003 7 { allFlags with v := false } [] = 3 ∧
    goes 0x26600003 7 { noFlags with v := true } [] = 8 ∧ goes 0x26800005 7 noFlags [(5, 3)] = 3 := by decide
theorem test_js : goes 0x27600005 1 { noFlags with s := true } [] = 5 ∧
    goes 0x27600005 1 { allFlags with s := false } [] = 2 ∧
    goes 0x27800006 1 { noFlags with s := true } [(6, 5)] = 5 := by decide
theorem test_jns : goes 0x28600005 1 { noFlags with s := true } [] = 2 ∧
    goes 0x28600005 1 { allFlags with s := false } [] = 5 ∧ goes 0x28800007 1 noFlags [(7, 5)] = 5 := by decide
theorem test_call_mem : seen 7 (before 0x30770010 2 noFlags [] []) = (3, 0x10, noFlags, .running) := by decide
theorem test_call_ind : seen 3 (before 0x30930003 9 noFlags [(3, 0x50)] []) = (0xA, 0x50, noFlags, .running) := by decide
theorem test_ret : seen 7 (before 0x31170000 0x12 noFlags [(7, 3)] []) = (3, 3, noFlags, .running) := by decide
theorem test_halt : seen 0 (before 0xFF000000 2 allFlags [(0, 0xA)] []) = (0xA, 3, allFlags, .halted) := by decide

/-- Section 5, the last address of the whole address space: `pc` wraps, and so does the return address. -/
theorem test_pc_wraps : goes 0x01300000 0xFFFFFFFF noFlags [] = 0 ∧
    seen 7 (before 0x30770010 0xFFFFFFFF noFlags [] []) = (0, 0x10, noFlags, .running) := by decide

/-! ## Faults and the engine: section 6 -/

theorem test_jump_out_of_memory : (after1 (sized 256 0x20600200)).status = .running ∧
    (after1 (after1 (sized 256 0x20600200))).pc = 0x200 ∧
    (after1 (after1 (sized 256 0x20600200))).status = .faulted .memoryFault 0x200 := by decide
theorem test_load_at_memSize : (after1 (sized 256 0x02700100)).status = .faulted .memoryFault 0x100 ∧
    (after1 (sized 256 0x027000FF)).status = .running := by decide
theorem test_store_at_memSize : (after1 (sized 256 0x03700100)).status = .faulted .memoryFault 0x100 ∧
    (after1 (sized 256 0x03700100)).mem = [(0, 0x03700100)] := by decide
theorem test_fault_priority : (after1 (sized 256 0x04E00000)).status = .faulted .invalidOpcode 0x04 ∧
    (after1 (sized 256 0x02990100)).status = .faulted .invalidOperand 0x02 ∧
    (after1 (sized 256 0x19700100)).status = .faulted .invalidOperand 0x19 := by decide
theorem test_reset_memory_faults : seen 0 State.reset = (0, 0, noFlags, .faulted .invalidOpcode 0) := by decide

/-- Section 6.4. -/
theorem test_loadProgram :
    loadProgram 14 [1, 2, 3] { State.reset with memSize := 16 } = .fault .loadOutOfBounds ∧
    loadProgram 13 [1, 2, 3] { State.reset with memSize := 16 } =
      .next { State.reset with memSize := 16, mem := [(13, 1), (14, 2), (15, 3)] } ∧
    loadProgram 16 [] { State.reset with memSize := 16 } = .next { State.reset with memSize := 16 } ∧
    loadProgram 0 [0] { State.reset with memSize := 16 } = .next { State.reset with memSize := 16 } :=
  ⟨rfl, rfl, rfl, rfl⟩

/-! ## A witness for the hypotheses of each statement -/

/-- A state at address 0 whose fetch gives `MOV R0, 5`. -/
def onMov : State := small 0x01500005 []

/-- A state at address 0 whose fetch gives `DIV R0, R1` with `R1 = 0`. -/
def onDivByZero : State := before 0x19300001 0 allFlags [(0, 0xA)] []

/-- A state at address 0 whose fetch gives `STORE R2, [0x20]`. -/
def onStore : State := small 0x03720020 [(2, 0x37)]

/-- A state at address 0 whose fetch gives `STORE R0, [0x100]`, the first address outside its memory. -/
def onBadStore : State := sized 256 0x03700100

/-- A state at address 0 whose fetch gives `SUB R1, R2`. -/
def onSub : State := small 0x11310002 [(1, 3), (2, 5)]

/-- A state at address 0 whose fetch gives `JMP [0x200]`, outside its memory. -/
def onFarJump : State := sized 256 0x20600200

theorem step_after1 (s : State) : step s = .next (after1 s) := by
  rcases step_cases s with ⟨-, h⟩ | ⟨-, -, h⟩ | ⟨-, -, _, -, h⟩ | ⟨-, -, i, -, h⟩ <;>
    simp only [after1, h, exec_eq_next]

theorem witness_ALegalWordIsItsInstructionsOnlyEncoding : decode 0x0277FFFF = .ok (.loadMem 7 0xFFFF) := rfl

/-- Each of the six operand tests of R59, failing alone where it can, and a Word that fails none. -/
theorem witness_DecoderFollowsItsTests :
    (∀ o : Opcode, o.code ≠ (0x04E00000 : Word).extractLsb' 24 8) ∧
    operandTestFails .mov 0x01400005 ∧ operandTestFails .add 0x10700005 ∧ operandTestFails .jmp 0x20610000 ∧
    operandTestFails .mov 0x01580005 ∧ operandTestFails .ret 0x31170001 ∧ operandTestFails .mov 0x01300008 ∧
    ¬ operandTestFails .mov 0x01370007 ∧ Opcode.code .mov = (0x01370007 : Word).extractLsb' 24 8 := by
  refine ⟨fun o => by cases o <;> decide, ?_, ?_, ?_, ?_, ?_, ?_, ?_, by decide⟩ <;> simp only [operandTestFails] <;>
    decide

/-- A word at each end of each unassigned range of R62, and assigned neighbours. -/
theorem witness_UnassignedOpcodesAlwaysFault :
    decode 0x00FFFFFF = .error (.invalidOpcode 0x00) ∧ decode 0x04000000 = .error (.invalidOpcode 0x04) ∧
    decode 0x0FFFFFFF = .error (.invalidOpcode 0x0F) ∧ decode 0x1A000000 = .error (.invalidOpcode 0x1A) ∧
    decode 0x1FFFFFFF = .error (.invalidOpcode 0x1F) ∧ decode 0x29000000 = .error (.invalidOpcode 0x29) ∧
    decode 0x2FFFFFFF = .error (.invalidOpcode 0x2F) ∧ decode 0x32000000 = .error (.invalidOpcode 0x32) ∧
    decode 0xFEFFFFFF = .error (.invalidOpcode 0xFE) ∧ decode 0x31FFFFFF = .error (.invalidOperand 0x31) :=
  ⟨rfl, rfl, rfl, rfl, rfl, rfl, rfl, rfl, rfl, rfl⟩

theorem witness_StepRunsTheDecodedInstruction : terminal onMov.status = false ∧ onMov.pc.toNat < onMov.memSize ∧
    decode (onMov.mem.read onMov.pc.toNat) = .ok (.movImm 0 5) := ⟨rfl, by decide, rfl⟩

/-- `pc` at the first address outside memory. -/
def atEnd : State := { State.reset with pc := 65536 }

theorem witness_FetchOutsideMemoryFaults : terminal atEnd.status = false ∧ atEnd.memSize ≤ atEnd.pc.toNat ∧
    (after1 atEnd).status = .faulted .memoryFault 0x10000 := by decide

theorem witness_UndecodableWordsFaultWithTheirOpcode :
    (let s := small 0x04000000 []
     terminal s.status = false ∧ s.pc.toNat < s.memSize ∧
      ∀ o : Opcode, o.code ≠ (s.mem.read s.pc.toNat).extractLsb' 24 8) ∧
    (let s := small 0x31170001 []
     terminal s.status = false ∧ s.pc.toNat < s.memSize ∧
      Opcode.code .ret = (s.mem.read s.pc.toNat).extractLsb' 24 8 ∧ operandTestFails .ret (s.mem.read s.pc.toNat)) :=
  ⟨⟨rfl, by decide, fun o => by cases o <;> decide⟩, rfl, by decide, by decide, by simp only [operandTestFails]; decide⟩

theorem witness_TerminalStatesAreSticky :
    (after1 (small 0xFF000000 [])).status = .halted ∧
    (after1 (small 0 [])).status = .faulted .invalidOpcode 0 := by decide

/-- Each row of the table of R155 that leaves `Ready` or `Running`. -/
theorem witness_StatusMovesByTheTable :
    onMov.status = .ready ∧ (after1 onMov).status = .running ∧ (after1 (small 0xFF000000 [])).status = .halted ∧
    (after1 onDivByZero).status = .faulted .arithmeticFault 0x19 ∧
    (after1 (after1 onMov)).status = .faulted .invalidOpcode 0 := by decide

theorem witness_FaultsAreClean : terminal onDivByZero.status = false ∧ step onDivByZero = .next (after1 onDivByZero) ∧
    (after1 onDivByZero).status = .faulted .arithmeticFault 0x19 := ⟨rfl, step_after1 _, by decide⟩

/-- A fetch fault at `pc = MEM_SIZE` and a data fault at `ea = MEM_SIZE`. -/
theorem witness_MemoryFaultsNameTheirAccess :
    (terminal atEnd.status = false ∧ step atEnd = .next (after1 atEnd) ∧
      (after1 atEnd).status = .faulted .memoryFault atEnd.pc) ∧
    terminal onBadStore.status = false ∧ step onBadStore = .next (after1 onBadStore) ∧
      (after1 onBadStore).status = .faulted .memoryFault 0x100 ∧ onBadStore.pc ≠ 0x100 :=
  ⟨⟨rfl, step_after1 _, by decide⟩, rfl, step_after1 _, by decide, by decide⟩

theorem witness_ArithmeticFaultIsDivisionByZero :
    terminal onDivByZero.status = false ∧ step onDivByZero = .next (after1 onDivByZero) ∧
    (after1 onDivByZero).status = .faulted .arithmeticFault 0x19 ∧ divisor (.divReg 0 1) onDivByZero = some 0 :=
  ⟨rfl, step_after1 _, by decide, by decide⟩

theorem witness_CompletedStepsAdvancePcByOne :
    terminal onMov.status = false ∧ onMov.pc.toNat < onMov.memSize ∧
    decode (onMov.mem.read onMov.pc.toNat) = .ok (.movImm 0 5) ∧ step onMov = .next (after1 onMov) ∧
    ¬ isControlTransfer (Instr.movImm 0 5).opcode ∧ (after1 onMov).status = .running :=
  ⟨rfl, by decide, rfl, step_after1 _, by simp only [isControlTransfer]; decide, by decide⟩

/-- A completed instruction that is no ALU instruction, and a faulting one that is. -/
theorem witness_OnlyAluInstructionsWriteFlags :
    (exec (.movImm 0 5) onMov = .next (after (.movImm 0 5) onMov) ∧ ¬ isAlu (Instr.movImm 0 5).opcode) ∧
    exec (.divReg 0 1) onDivByZero = .next (after (.divReg 0 1) onDivByZero) ∧
    (after (.divReg 0 1) onDivByZero).status = .faulted .arithmeticFault 0x19 :=
  ⟨⟨exec_eq_next _ _, by simp only [isAlu]; decide⟩, exec_eq_next _ _, by decide⟩

/-- An instruction that is no `STORE`, and a `STORE` that changes its cell. -/
theorem witness_OnlyStoreWritesMemoryAndOnlyItsCell :
    (exec (.movImm 0 5) onMov = .next (after (.movImm 0 5) onMov) ∧ (Instr.movImm 0 5).opcode ≠ .store) ∧
    exec (.storeMem 2 0x20) onStore = .next (after (.storeMem 2 0x20) onStore) ∧
    dataAddress (.storeMem 2 0x20) onStore = some 0x20 ∧
    (after (.storeMem 2 0x20) onStore).mem.read 0x20 ≠ onStore.mem.read 0x20 :=
  ⟨⟨exec_eq_next _ _, by decide⟩, exec_eq_next _ _, by decide, by decide⟩

/-- A register beside operand A, an instruction with no destination register, and a fault. -/
theorem witness_OnlyOperandAIsWritten :
    (exec (.movImm 0 5) onMov = .next (after (.movImm 0 5) onMov) ∧ (Instr.movImm 0 5).operandA ≠ some 1 ∧
      (after (.movImm 0 5) onMov).getReg 0 ≠ onMov.getReg 0) ∧
    (exec (.storeMem 2 0x20) onStore = .next (after (.storeMem 2 0x20) onStore) ∧
      writesNoRegister (Instr.storeMem 2 0x20).opcode) ∧
    exec (.divReg 0 1) onDivByZero = .next (after (.divReg 0 1) onDivByZero) ∧
    (after (.divReg 0 1) onDivByZero).status = .faulted .arithmeticFault 0x19 :=
  ⟨⟨exec_eq_next _ _, by decide, by decide⟩, ⟨exec_eq_next _ _, by simp only [writesNoRegister]; decide⟩,
    exec_eq_next _ _, by decide⟩

/-- The reset state with its last cell loaded. -/
def lastLoaded : State := { State.reset with mem := [(65535, 1)] }

theorem witness_MemSizeNeverChanges :
    step onMov = .next (after1 onMov) ∧ loadProgram 65535 [1] State.reset = .next lastLoaded ∧
    run 0 onMov = .next { result := .stepLimitReached, steps := 0, final := onMov } := ⟨step_after1 _, rfl, rfl⟩

theorem witness_EveryStepKeepsTheInvariant : State.Inv onMov ∧ step onMov = .next (after1 onMov) :=
  ⟨by simp only [State.Inv]; decide, step_after1 _⟩

/-- The smallest and the largest `MEM_SIZE`, and an `INIT_MEM` with its last cell set. -/
theorem witness_PowerOnMeetsTheInvariant :
    configOk { memSize := 1, initMem := [(0, 0xFF000000)] } = true ∧
    configOk { memSize := 4294967296, initMem := [(4294967295, 7)] } = true := by decide

theorem witness_HostOperationsKeepTheInvariant :
    (State.Inv onMov ∧ run 0 onMov = .next { result := .stepLimitReached, steps := 0, final := onMov }) ∧
    State.Inv State.reset ∧ loadProgram 65535 [1] State.reset = .next lastLoaded :=
  ⟨⟨by simp only [State.Inv]; decide, rfl⟩, by simp only [State.Inv]; decide, rfl⟩

theorem witness_PowerOnIsResetWithInitMem :
    (after1 onMov).memSize = Config.memSize { memSize := 65536, initMem := [(0, 0x01500005)] } ∧
    (after1 onMov).mem = Config.initMem { memSize := 65536, initMem := [(0, 0x01500005)] } := by decide

theorem witness_EveryInitialMemoryIsSomePowerOn : (1 ≤ 1 ∧ 1 ≤ 2 ^ 32) ∧ 1 ≤ 4294967296 ∧ 4294967296 ≤ 2 ^ 32 := by
  norm_num

/-- Both forms of `LOAD`, at the last address inside memory and the first outside. -/
theorem witness_LoadReadsTheAddressedWord :
    ((0xFFFF : BitVec 16).setWidth 32).toNat < State.reset.memSize ∧
    (sized 256 0).memSize ≤ ((0x0100 : BitVec 16).setWidth 32).toNat ∧
    (small 0 [(1, 0xFFFF)]).regs[1].toNat < (small 0 [(1, 0xFFFF)]).memSize ∧
    (small 0 [(1, 0x10000)]).memSize ≤ (small 0 [(1, 0x10000)]).regs[1].toNat := by decide

/-- Both forms of `STORE`, at the last address inside memory and the first outside. -/
theorem witness_StoreWritesTheAddressedWord :
    ((0xFFFF : Word) = (0xFFFF : BitVec 16).setWidth 32 ∧ (0xFFFF : Word).toNat < State.reset.memSize) ∧
    ((0x100 : Word) = (0x0100 : BitVec 16).setWidth 32 ∧ (sized 256 0).memSize ≤ (0x100 : Word).toNat) ∧
    ((0xFFFF : Word) = (small 0 [(1, 0xFFFF)]).regs[1] ∧ (0xFFFF : Word).toNat < State.reset.memSize) ∧
    (0x10000 : Word) = (small 0 [(1, 0x10000)]).regs[1] ∧ (small 0 []).memSize ≤ (0x10000 : Word).toNat := by decide

/-- `STORE R0, [R1]` at address 0 with `R1 = 1` and the Word of `HALT` in `R0`. -/
theorem witness_NextFetchSeesTheStore :
    (let s := small 0x03900001 [(0, 0xFF000000), (1, 1)]
     terminal s.status = false ∧ s.pc.toNat < s.memSize ∧
      decode (s.mem.read s.pc.toNat) = .ok (.storeInd 0 1) ∧ s.getReg 1 = s.pc + 1 ∧
      (s.pc + 1).toNat < s.memSize ∧ s.getReg 0 = encode .halt) :=
  ⟨rfl, by decide, rfl, by decide, by decide, by decide⟩

/-- Both forms of `CMP`. -/
theorem witness_CmpFlagsOrderTheOperands :
    ((7 : Word) = (small 0 [(1, 7)]).regs[1]) ∧ ((0xFFFFFFFF : Word) = (0xFFFF : BitVec 16).signExtend 32) := by decide

/-- Shift counts 0, 1, 31 and 32 as register values. -/
theorem witness_ShlFlagsAsBits :
    State.reset.regs[1].toNat = 0 ∧ (small 0 [(1, 1)]).regs[1].toNat = 1 ∧
    (small 0 [(1, 31)]).regs[1].toNat = 31 ∧ (small 0 [(1, 32)]).regs[1].toNat = 32 := by decide

/-- Shift counts 31 and 32 as register values, with a negative and a positive operand. -/
theorem witness_WideRightShiftsSaturate :
    31 ≤ (small 0 [(1, 31)]).regs[1].toNat ∧ 32 ≤ (small 0 [(1, 32)]).regs[1].toNat ∧
    (small 0 [(0, 0x80000000), (1, 31)]).regs[0].msb = true ∧ (small 0 [(1, 31)]).regs[0].msb = false := by decide

/-- Both forms of `DIV`, with a zero and a non-zero divisor. -/
theorem witness_DivGivesTheUnsignedQuotientOrFaults :
    (3 : Word) = (small 0 [(1, 3)]).regs[1] ∧ (3 : Word) ≠ 0 ∧ (0 : Word) = State.reset.regs[1] ∧
    (0xFFFFFFFF : Word) = (0xFFFF : BitVec 16).signExtend 32 ∧ (0 : Word) = (0 : BitVec 16).signExtend 32 := by decide

theorem witness_ZeroAndSignDescribeTheResult :
    exec (.subReg 1 2) onSub = .next (after (.subReg 1 2) onSub) ∧ isAlu (Instr.subReg 1 2).opcode ∧
    (Instr.subReg 1 2).opcode ≠ .cmp ∧ (Instr.subReg 1 2).operandA = some 1 ∧
    (after (.subReg 1 2) onSub).status = .running :=
  ⟨exec_eq_next _ _, by simp only [isAlu]; decide, by decide, by decide, by decide⟩

theorem witness_BadTargetsFaultAtTheNextFetch :
    isControlTransfer (Instr.jmpMem 0x200).opcode ∧
    exec (.jmpMem 0x200) onFarJump = .next (after (.jmpMem 0x200) onFarJump) ∧
    (after (.jmpMem 0x200) onFarJump).memSize ≤ (after (.jmpMem 0x200) onFarJump).pc.toNat :=
  ⟨by simp only [isControlTransfer]; decide, exec_eq_next _ _, by decide⟩

theorem witness_HaltAdvancesAndStops :
    (0xFF000001 : Word).extractLsb' 24 8 = 0xFF ∧ (0xFF000001 : Word) ≠ 0xFF000000 := by decide

/-- Each clause of the loop: both terminal statuses, an empty budget, a step. -/
theorem witness_RunFollowsItsLoop :
    ((after1 (small 0xFF000000 [])).status = .halted ∧ (after1 (small 0 [])).status = .faulted .invalidOpcode 0) ∧
    terminal onMov.status = false ∧ step onMov = .next (after1 onMov) ∧
    run 0 (after1 onMov) = .next { result := .stepLimitReached, steps := 0, final := after1 onMov } :=
  ⟨by decide, rfl, step_after1 _, rfl⟩

theorem witness_RunIsResumable :
    run 1 onMov = .next { result := .stepLimitReached, steps := 1, final := after1 onMov } ∧
    run 1 (after1 onMov) =
      .next { result := .faulted .invalidOpcode 0, steps := 1, final := after1 (after1 onMov) } := ⟨rfl, rfl⟩

/-- A load that ends on the last cell, one that ends one past it, and cells on both sides of the first. -/
theorem witness_LoadProgramIsAllOrNothing :
    State.reset.status ≠ .running ∧ 65534 + [1, 2].length ≤ State.reset.memSize ∧
    State.reset.memSize < 65535 + [1, 2].length ∧ 65533 < 65534 ∧ 65534 + [1, 2].length ≤ 65536 ∧
    (0 : Nat) < [1, 2].length := by decide

/-- The clause of `reset()` about terminal statuses. -/
theorem witness_ResetZeroesAllButMemory : terminal (after1 (small 0xFF000000 [])).status = true ∧
    loadProgram 65535 [] (after1 (small 0xFF000000 [])) = .next (after1 (small 0xFF000000 [])) := ⟨by decide, rfl⟩

theorem witness_ResetAndLoadCommute : loadProgram 65535 [1] State.reset = .next lastLoaded := rfl

theorem witness_LoadWhileRunningIsRefused : (after1 onMov).status = .running := by decide

end Sys2Proof.Tests
end

/-! ## What one instruction can leave behind

The inversion lemma the frames of 10_state.md are read off: the shapes a next state can have, and which opcodes give which. -/

namespace Sys2Proof.Machine

open Sys2Proof.Claims

/-- The shapes of the state an instruction leaves (R96, R120, R153 steps 4 and 5), each with what it says of the
instruction. `after_effect` ties it to `exec`: no instruction does anything else. -/
inductive Effect (i : Instr) (s : State) : State → Prop
  /-- R176: a fault is taken, and nothing else happens. -/
  | fault (f : FaultReport) : Effect i s (s.raise f)
  /-- R81, R82: operand A's register, default advance. -/
  | move {rd : Reg} (v : Word) (writes : ¬ writesNoRegister i.opcode) (dest : i.operandA = some rd) :
      Effect i s (s.setReg rd v).advance
  /-- R83: the addressed cell, default advance. -/
  | store {ea : Word} (v : Word) (isStore : i.opcode = .store) (address : dataAddress i s = some ea) :
      Effect i s { s with mem := s.mem.write ea.toNat v }.advance
  /-- R96: operand A's register and the flags, default advance. -/
  | alu {rd : Reg} (v : Word) (f : Flags) (aluOp : isAlu i.opcode) (writes : ¬ writesNoRegister i.opcode)
      (dest : i.operandA = some rd) : Effect i s ((s.setReg rd v).setFlags f).advance
  /-- R108: the flags alone, default advance. -/
  | compare (f : Flags) (isCmp : i.opcode = .cmp) : Effect i s (s.setFlags f).advance
  /-- R120: `pc` alone; a jump not taken goes to the next address. -/
  | jump (target : Word) (transfers : isControlTransfer i.opcode) : Effect i s (s.jump target)
  /-- R130: operand A's register, the link, and `pc`. -/
  | call {rl : Reg} (v target : Word) (isCall : i.opcode = .call) (dest : i.operandA = some rl) :
      Effect i s ((s.setReg rl v).jump target)
  /-- R140: the default advance, into `Halted`. -/
  | halt (isHalt : i.opcode = .halt) : Effect i s s.halt

section
variable {i : Instr} {s t : State}

/-- R82: a load moves a Word, or faults. -/
theorem Effect.of_load {rd : Reg} {c : Prop} [Decidable c] (v : Word) (f : FaultReport)
    (writes : ¬ writesNoRegister i.opcode) (dest : i.operandA = some rd) :
    Effect i s (if c then (s.setReg rd v).advance else s.raise f) := by
  split
  · exact .move v writes dest
  · exact .fault f

/-- R83: a store writes its cell, or faults. -/
theorem Effect.of_store {ea : Word} {c : Prop} [Decidable c] (v : Word) (f : FaultReport)
    (isStore : i.opcode = .store) (address : dataAddress i s = some ea) :
    Effect i s (if c then { s with mem := s.mem.write ea.toNat v }.advance else s.raise f) := by
  split
  · exact .store v isStore address
  · exact .fault f

/-- R109: a division faults, or writes like the other ALU instructions. -/
theorem Effect.of_div {rd : Reg} {c : Prop} [Decidable c] (v : Word) (fl : Flags) (f : FaultReport)
    (isDiv : i.opcode = .div) (dest : i.operandA = some rd) :
    Effect i s (if c then s.raise f else ((s.setReg rd v).setFlags fl).advance) := by
  split
  · exact .fault f
  · exact .alu v fl (by simp [isAlu, isDiv]) (by simp [writesNoRegister, isDiv]) dest

/-- R120: a conditional jump writes `pc` alone, taken or not. -/
theorem Effect.of_jumpIf {c : Prop} [Decidable c] (target : Word) (transfers : isControlTransfer i.opcode) :
    Effect i s (if c then s.jump target else s.advance) := by
  split
  · exact .jump target transfers
  · exact .jump s.nextPc transfers

/-- Every instruction, in every state, has one of the effects. -/
theorem after_effect (i : Instr) (s : State) : Effect i s (after i s) := by
  cases i
  case movReg | movImm => exact .move _ (by simp [writesNoRegister, Instr.opcode]) rfl
  case loadMem => rw [after_loadMem]; exact .of_load _ _ (by simp [writesNoRegister, Instr.opcode]) rfl
  case loadInd => rw [after_loadInd]; exact .of_load _ _ (by simp [writesNoRegister, Instr.opcode]) rfl
  case storeMem => rw [after_storeMem]; exact .of_store _ _ rfl rfl
  case storeInd => rw [after_storeInd]; exact .of_store _ _ rfl rfl
  case divReg => rw [after_divReg]; exact .of_div _ _ _ rfl rfl
  case divImm => rw [after_divImm]; exact .of_div _ _ _ rfl rfl
  case cmpReg | cmpImm => exact .compare _ rfl
  case addReg | addImm | subReg | subImm | andReg | andImm | orReg | orImm | xorReg | xorImm | shlReg | shlImm
      | shrReg | shrImm | sarReg | sarImm =>
    exact .alu _ _ (by simp [isAlu, Instr.opcode]) (by simp [writesNoRegister, Instr.opcode]) rfl
  case jmpMem | jmpInd | ret => exact .jump _ (by simp [isControlTransfer, Instr.opcode])
  case callMem | callInd => exact .call _ _ rfl rfl
  case halt => exact .halt rfl
  all_goals exact .of_jumpIf _ (by simp [isControlTransfer, Instr.opcode])

theorem effect_of_exec (h : exec i s = .next t) : Effect i s t := after_of_exec h ▸ after_effect i s

/-- R176: an instruction that ends in `Faulted` has changed nothing but `status`. -/
theorem eq_raise_of_exec_faulted {r : FaultReason} {info : Word} (h : exec i s = .next t)
    (hf : t.status = .faulted r info) : ∃ f, t = s.raise f := by
  rw [exec_eq_next_iff.1 h] at hf ⊢
  rcases after_cases i s with hraise | ⟨hst, -, -⟩
  · exact hraise
  · simp [hf] at hst

/-! ## Frames of an effect -/

/-- R15: a completed effect of an instruction that transfers no control goes to the next address. -/
theorem Effect.pc_eq (h : Effect i s t) (hi : ¬ isControlTransfer i.opcode)
    (hst : t.status = .running ∨ t.status = .halted) : t.pc = s.pc + 1 := by
  cases h with
  | fault f => simp at hst
  | jump target transfers => exact absurd transfers hi
  | call v target isCall => exact absurd (by simp [isControlTransfer, isCall]) hi
  | move | store | alu | compare | halt => exact s.nextPc_eq

/-- R19: flags are written by arithmetic/logic instructions alone. -/
theorem Effect.flags_eq (h : Effect i s t) (hi : ¬ isAlu i.opcode) : t.flags = s.flags := by
  cases h with
  | alu v f aluOp => exact absurd aluOp hi
  | compare f isCmp => exact absurd (by simp [isAlu, isCmp]) hi
  | fault | move | store | jump | call | halt => rfl

/-- R12: no register but operand A's is written. -/
theorem Effect.getReg_eq_of_ne_operandA (h : Effect i s t) {r : Reg} (hr : i.operandA ≠ some r) :
    t.getReg r = s.getReg r := by
  have other {rd : Reg} (v : Word) (dest : i.operandA = some rd) : (s.setReg rd v).getReg r = s.getReg r :=
    s.getReg_setReg_ne v fun e => hr (e ▸ dest)
  cases h with
  | move v _ dest => exact other v dest
  | alu v _ _ _ dest => exact other v dest
  | call v _ _ dest => exact other v dest
  | fault | store | compare | jump | halt => rfl

/-- R12: an instruction without a destination register writes none. -/
theorem Effect.getReg_eq_of_writesNoRegister (h : Effect i s t) (hi : writesNoRegister i.opcode) (r : Reg) :
    t.getReg r = s.getReg r := by
  cases h with
  | move _ writes => exact absurd hi writes
  | alu _ _ _ writes => exact absurd hi writes
  | call _ _ isCall => simp [writesNoRegister, isCall] at hi
  | fault | store | compare | jump | halt => rfl

/-- R153: where the Word at `pc` decodes, the step is the meaning of what it spells. -/
theorem step_eq_exec (ht : terminal s.status = false) (hp : s.pc.toNat < s.memSize)
    (hd : decode (s.mem.read s.pc.toNat) = .ok i) : step s = exec i s := by
  simp [step, ht, State.fetch, memRead_inside hp, hd]

end

/-! ## The statements about registers, `pc` and flags -/

/-- Settles O16: the step is the decoded instruction's effect, and each effect but a fault and a transfer advances. -/
theorem completedStepsAdvancePcByOne : Obligations.CompletedStepsAdvancePcByOne := by
  intro s t i ht hp hd hstep hi hst
  rw [step_eq_exec ht hp hd] at hstep
  exact (effect_of_exec hstep).pc_eq hi hst

/-- Settles O17: by the effects where the opcode is no ALU's, and because a fault writes `status` alone. -/
theorem onlyAluInstructionsWriteFlags : Obligations.OnlyAluInstructionsWriteFlags := by
  rintro i s t h (hi | ⟨r, info, hf⟩)
  · exact (effect_of_exec h).flags_eq hi
  · obtain ⟨f, rfl⟩ := eq_raise_of_exec_faulted h hf
    exact s.raise_flags f

/-- Settles O19: by the effects, each of which writes operand A's register or none, and a fault none. -/
theorem onlyOperandAIsWritten : Obligations.OnlyOperandAIsWritten := by
  intro i s t h
  refine ⟨fun r hr => (effect_of_exec h).getReg_eq_of_ne_operandA hr, ?_⟩
  rintro (hi | ⟨r, info, hf⟩) q
  · exact (effect_of_exec h).getReg_eq_of_writesNoRegister hi q
  · obtain ⟨f, rfl⟩ := eq_raise_of_exec_faulted h hf
    exact s.getReg_raise f q

end Sys2Proof.Machine

/-! ## Memory

What every step and every host operation leaves in memory (20_memory.md), each said once: a step writes at most one existing
cell, a load writes consecutive existing cells, `reset()` writes none. The invariant and `MEM_SIZE` follow from these. -/

namespace Sys2Proof.Machine

open Sys2Proof.Claims

/-! ### One instruction and one step -/

section
variable {i : Instr} {s t : State}

/-- R31, R36: an instruction that is no `STORE` leaves memory as it is. -/
theorem Effect.mem_eq (h : Effect i s t) (hi : i.opcode ≠ .store) : t.mem = s.mem := by
  cases h with
  | store v isStore => exact absurd isStore hi
  | fault | move | alu | compare | jump | call | halt => rfl

/-- R83: no instruction writes a cell other than the one it addresses. -/
theorem Effect.read_eq_of_ne_address (h : Effect i s t) {ea : Word} (hea : dataAddress i s = some ea) {a : Nat}
    (ha : a ≠ ea.toNat) : t.mem.read a = s.mem.read a := by
  cases h with
  | store v _ address =>
    obtain rfl := Option.some.inj (hea.symm.trans address)
    exact s.mem.read_write_ne v ha
  | fault | move | alu | compare | jump | call | halt => rfl

/-- R32, R171: a step whose fetch lies outside memory takes the fault. -/
theorem step_eq_raise_of_fetch_outside (ht : terminal s.status = false) (hp : s.memSize ≤ s.pc.toNat) :
    step s = .next (s.raise { reason := .memoryFault, info := s.pc }) := by
  simp [step, ht, State.fetch, memRead_outside hp]

/-- R32, R47: a step keeps `MEM_SIZE`, and leaves memory alone or writes one existing cell. -/
theorem step_memory (h : step s = .next t) : t.memSize = s.memSize ∧
    (t.mem = s.mem ∨ ∃ a v : Word, a.toNat < s.memSize ∧ t.mem = s.mem.write a.toNat v) := by
  rcases step_cases s with ⟨-, hs⟩ | ⟨-, -, hs⟩ | ⟨-, -, d, -, hs⟩ | ⟨-, -, i, -, hs⟩ <;> rw [hs] at h
  · cases h; exact ⟨rfl, .inl rfl⟩
  · cases h; exact ⟨rfl, .inl rfl⟩
  · cases h; exact ⟨rfl, .inl rfl⟩
  · rw [exec_eq_next_iff.1 h]
    rcases after_cases i s with ⟨f, hf⟩ | ⟨-, hsize, hmem⟩
    · rw [hf]; exact ⟨rfl, .inl rfl⟩
    · exact ⟨hsize, hmem⟩

end

/-! ### Host operations -/

/-- R40, R163: when a load succeeds, and the state it leaves. -/
theorem loadProgram_eq_next_iff {base : Nat} {words : List Word} {s t : State} :
    loadProgram base words s = .next t ↔
      s.status ≠ .running ∧ base + words.length ≤ s.memSize ∧ t = { s with mem := s.mem.load base words } := by
  unfold loadProgram
  split
  · next hrun => simp [hrun]
  · next hrun =>
    split
    · next hout => simp [hout]
    · next hin => simp [hrun, not_lt.1 hin, eq_comm]

/-- R160: counting a step leaves the final state of a run as it is. -/
theorem countStep_eq_next {o : Host.Outcome RunReport Fault Refusal} {r : RunReport} (h : countStep o = .next r) :
    ∃ q, o = .next q ∧ q.final = r.final := by
  cases o with
  | next q => cases h; exact ⟨q, rfl, rfl⟩
  | fault | refused => cases h

/-- R158: what every step keeps, every run keeps. -/
theorem run_preserves {P : State → Prop} (hstep : ∀ {u v : State}, P u → step u = .next v → P v) {n : Nat} {s : State}
    {r : RunReport} (hs : P s) (h : run n s = .next r) : P r.final := by
  induction n generalizing s r with
  | zero => cases h; exact hs
  | succ n ih =>
    rw [run] at h
    split at h
    · cases h; exact hs
    · split at h
      · next t ht =>
        obtain ⟨q, hq, hfinal⟩ := countStep_eq_next h
        rw [← hfinal]
        exact ih (hstep hs ht) hq
      · cases h
      · cases h

/-! ### The invariant -/

section
variable {s t : State}

/-- The invariant speaks of `MEM_SIZE` and memory alone. -/
theorem State.Inv.of_same_memory (h : s.Inv) (hsize : t.memSize = s.memSize) (hmem : t.mem = s.mem) : t.Inv := by
  unfold State.Inv
  rwa [hsize, hmem]

theorem State.Inv.write (h : s.Inv) {a : Nat} (v : Word) (ha : a < s.memSize) (hsize : t.memSize = s.memSize)
    (hmem : t.mem = s.mem.write a v) : t.Inv := by
  obtain ⟨hok, hwf, hin⟩ := h
  unfold State.Inv
  rw [hsize, hmem]
  exact ⟨hok, Memory.wf_write a v hwf, Memory.inside_write v ha hin⟩

theorem State.Inv.of_step (h : s.Inv) (hs : step s = .next t) : t.Inv := by
  obtain ⟨hsize, hmem | ⟨a, v, ha, hmem⟩⟩ := step_memory hs
  · exact h.of_same_memory hsize hmem
  · exact h.write v ha hsize hmem

theorem State.Inv.of_loadProgram (h : s.Inv) {base : Nat} {words : List Word}
    (hl : loadProgram base words s = .next t) : t.Inv := by
  obtain ⟨-, hb, rfl⟩ := loadProgram_eq_next_iff.1 hl
  obtain ⟨hok, hwf, hin⟩ := h
  exact ⟨hok, Memory.wf_load base words hwf, Memory.inside_load base words hb hin⟩

theorem State.powerOn_inv {c : Config} (h : configOk c = true) : (State.powerOn c).Inv := by
  simpa [configOk, State.Inv, and_assoc] using h

end

/-! ### Any contents -/

/-- The canonical list of the cells below `n` with the contents `f`, written cell by cell. -/
def Memory.ofMap (n : Nat) (f : Nat → Word) : Memory := Memory.load [] 0 ((List.range n).map f)

theorem Memory.read_ofMap (f : Nat → Word) {n a : Nat} (ha : a < n) : (Memory.ofMap n f).read a = f a := by
  rw [Memory.ofMap, Memory.read_load, dif_pos (by simpa using ha)]
  simp

theorem Memory.wf_ofMap (n : Nat) (f : Nat → Word) : Memory.wf (Memory.ofMap n f) = true := Memory.wf_load 0 _ rfl

theorem Memory.inside_ofMap (n : Nat) (f : Nat → Word) : Memory.inside (Memory.ofMap n f) n = true :=
  Memory.inside_load 0 _ (by simp) rfl

/-! ### Stored instruction words -/

/-- R50, R59: the decoder reads an instruction's Word back as that instruction. -/
theorem decode_encode (i : Instr) : decode (encode i) = .ok i := by
  rw [decode_eq_ok, encode, fieldOP_packWord, fieldSA_packWord, fieldRA_packWord, fieldSB_packWord, fieldBV_packWord]
  exact ⟨rfl, rfl, rfl⟩

/-! ### The statements about memory -/

/-- Settles O21: a step leaves memory alone or writes one existing cell, and such a write keeps the invariant. -/
theorem everyStepKeepsTheInvariant : Obligations.EveryStepKeepsTheInvariant := fun _ _ h hs => h.of_step hs

/-- Settles O23: the run by what every step keeps, the load by its one effect, the reset because it leaves memory. -/
theorem hostOperationsKeepTheInvariant : Obligations.HostOperationsKeepTheInvariant :=
  ⟨fun _ _ _ h hr => run_preserves State.Inv.of_step h hr,
    fun _ _ _ _ h hl => h.of_loadProgram hl,
    fun _ h => h.of_same_memory rfl rfl⟩

/-- Settles O18: by the effects, of which the store's alone changes memory, and there the addressed cell. -/
theorem onlyStoreWritesMemoryAndOnlyItsCell : Obligations.OnlyStoreWritesMemoryAndOnlyItsCell := by
  intro i s t h
  have heff := effect_of_exec h
  refine ⟨fun hi a => ?_, fun _ ea hea a ha => heff.read_eq_of_ne_address hea ha⟩
  rw [heff.mem_eq hi]

/-- Settles O20: a step and a load keep `MEM_SIZE`, hence a run does, and a reset keeps it by definition. -/
theorem memSizeNeverChanges : Obligations.MemSizeNeverChanges := by
  refine ⟨fun s t h => (step_memory h).1, fun base words s t h => ?_, fun n s r h => ?_, State.hostReset_memSize⟩
  · obtain ⟨-, -, rfl⟩ := loadProgram_eq_next_iff.1 h
    rfl
  · exact run_preserves (P := fun u => u.memSize = s.memSize) (fun hu hv => (step_memory hv).1.trans hu) rfl h

/-- Settles O26: the parameters are `n` and the canonical list of `f` below `n`. -/
theorem everyInitialMemoryIsSomePowerOn : Obligations.EveryInitialMemoryIsSomePowerOn := by
  intro n f h1 hn
  refine ⟨{ memSize := n, initMem := Memory.ofMap n f }, ?_, rfl, fun a ha => Memory.read_ofMap f ha⟩
  have hsize : sizeOk n = true := by simp only [sizeOk, Bool.and_eq_true, decide_eq_true_eq]; omega
  simp [configOk, hsize, Memory.wf_ofMap, Memory.inside_ofMap]

/-- Settles O31: the store leaves the encoding of `j` in the cell its default advance goes to. -/
theorem nextFetchSeesTheStore : Obligations.NextFetchSeesTheStore := by
  intro s rs rb j ht hp hd hrb hin hrs
  have hea : addressInd rb s = s.pc + 1 := hrb
  refine ⟨{ s with mem := s.mem.write (s.pc + 1).toNat (encode j) }.advance, ?_, State.nextPc_eq s, ?_⟩
  · rw [step_eq_exec ht hp hd, exec_storeInd, hea, if_pos hin, hrs]
  · refine step_eq_exec rfl ?_ ?_ <;> rw [State.advance_pc, State.nextPc_eq]
    · exact hin
    · rw [State.advance_mem, Memory.read_write_same, decode_encode]

/-- Settles O54: both answers of the load, and what its one effect leaves in each cell. -/
theorem loadProgramIsAllOrNothing : Obligations.LoadProgramIsAllOrNothing := by
  intro base words s hrun
  refine ⟨fun hout => by simp [loadProgram, hrun, hout], fun hin => ?_⟩
  refine ⟨_, loadProgram_eq_next_iff.2 ⟨hrun, hin, rfl⟩, fun i hi => ?_, fun a ha => ?_, rfl, rfl, rfl, rfl, rfl⟩
  · rw [Memory.read_load, dif_pos (by omega)]
    simp
  · rw [Memory.read_load, dif_neg (by omega)]

/-- Settles O8: the fetch faults, and fault entry writes `status` alone. -/
theorem fetchOutsideMemoryFaults : Obligations.FetchOutsideMemoryFaults := fun _ ht hp =>
  step_eq_raise_of_fetch_outside ht hp

/-- Settles O22: legal parameters are the invariant of their power-on state, and those of `State.reset` are legal. -/
theorem powerOnMeetsTheInvariant : Obligations.PowerOnMeetsTheInvariant :=
  ⟨State.powerOn_inv (c := Config.forReset) (by decide), fun _ h => State.powerOn_inv h⟩

end Sys2Proof.Machine

/-! ## Encoding

The decoder taken apart once: what it can answer, and which fields spell an instruction of a given opcode, first by operands
(30_encoding.md R58, R61), then bit by bit. The operand tests of R59 and the rows of opcode_table.json both say the latter. -/

namespace Sys2Proof

open Machine Claims

/-! ### Words by their fields -/

/-- R50: a Word is its five fields. -/
theorem eq_packWord_iff {w : Word} {op : BitVec 8} {sb : BitVec 3} {sa : BitVec 1} {ra : BitVec 4} {bv : BitVec 16} :
    w = packWord op sb sa ra bv ↔
      fieldOP w = op ∧ fieldSB w = sb ∧ fieldSA w = sa ∧ fieldRA w = ra ∧ fieldBV w = bv := by
  constructor
  · rintro rfl
    exact ⟨fieldOP_packWord .., fieldSB_packWord .., fieldSA_packWord .., fieldRA_packWord .., fieldBV_packWord ..⟩
  · rintro ⟨rfl, rfl, rfl, rfl, rfl⟩
    exact (packWord_fields w).symm

/-- R50: a mask acts on each field apart. -/
theorem and_packWord (w : Word) (op : BitVec 8) (sb : BitVec 3) (sa : BitVec 1) (ra : BitVec 4) (bv : BitVec 16) :
    w &&& packWord op sb sa ra bv =
      packWord (fieldOP w &&& op) (fieldSB w &&& sb) (fieldSA w &&& sa) (fieldRA w &&& ra) (fieldBV w &&& bv) := by
  refine eq_packWord_iff.2 ⟨?_, ?_, ?_, ?_, ?_⟩
  · exact BitVec.extractLsb'_and.trans (congrArg _ (fieldOP_packWord ..))
  · exact BitVec.extractLsb'_and.trans (congrArg _ (fieldSB_packWord ..))
  · exact BitVec.extractLsb'_and.trans (congrArg _ (fieldSA_packWord ..))
  · exact BitVec.extractLsb'_and.trans (congrArg _ (fieldRA_packWord ..))
  · exact BitVec.extractLsb'_and.trans (congrArg _ (fieldBV_packWord ..))

/-! ### What the decoder answers -/

theorem Opcode.code_injective {o p : Opcode} (h : o.code = p.code) : o = p :=
  Option.some.inj (by rw [← opcodeOf_code, h, opcodeOf_code])

/-- R59, R178: the three answers of the decoder. -/
theorem decode_cases (w : Word) :
    ((∀ o : Opcode, fieldOP w ≠ o.code) ∧ decode w = .error (.invalidOpcode (fieldOP w))) ∨
    ∃ o : Opcode, fieldOP w = o.code ∧
      (decode w = .error (.invalidOperand (fieldOP w)) ∨ ∃ i, decode w = .ok i ∧ i.opcode = o) := by
  cases ho : opcodeOf (fieldOP w) with
  | none => exact .inl ⟨opcodeOf_eq_none.1 ho, by simp only [decode, ho]⟩
  | some o =>
    have hop := opcodeOf_eq_some.1 ho
    refine .inr ⟨o, hop, ?_⟩
    cases hd : decode w with
    | ok i => exact .inr ⟨i, rfl, Opcode.code_injective ((decode_eq_ok.1 hd).1.symm.trans hop)⟩
    | error d =>
      left
      simp only [decode, ho] at hd
      split at hd
      · exact hd.symm
      · cases hd

/-- R62: the opcode fault means that no opcode has the code. -/
theorem decode_eq_invalidOpcode_iff {w : Word} :
    decode w = .error (.invalidOpcode (fieldOP w)) ↔ ∀ o : Opcode, fieldOP w ≠ o.code := by
  rcases decode_cases w with ⟨hno, hd⟩ | ⟨o, hop, hd | ⟨i, hd, -⟩⟩
  · exact iff_of_true hd hno
  · exact iff_of_false (by simp [hd]) fun h => h o hop
  · exact iff_of_false (by simp [hd]) fun h => h o hop

/-- R59 step 3: with an assigned opcode, what is no instruction of that opcode has bad operands. -/
theorem decode_eq_invalidOperand {w : Word} {o : Opcode} (hop : fieldOP w = o.code)
    (h : ¬ ∃ i, decode w = .ok i ∧ i.opcode = o) : decode w = .error (.invalidOperand (fieldOP w)) := by
  rcases decode_cases w with ⟨hno, -⟩ | ⟨p, hp, hd⟩
  · exact absurd hop (hno o)
  · obtain rfl : p = o := Opcode.code_injective (hp.symm.trans hop)
    exact hd.resolve_right h

/-! ### The operands an opcode declares -/

/-- R52, R58: the shape of what stands as operand B. -/
def shapeOfB : Option Operand → Shape
  | none => .none
  | some b => b.shape

section
variable {a : Option Reg} {b : Option Operand}

theorem exists_valueForm_iff {f : Reg → Reg → Instr} {g : Reg → BitVec 16 → Instr} :
    (∃ i, valueForm f g a b = some i) ↔ a.isSome = true ∧ shapeOfB b ∈ [Shape.register, .immediate] := by
  rcases a with _ | a <;> rcases b with _ | (_ | _ | _ | _) <;> simp [valueForm, shapeOfB, Operand.shape]

theorem exists_addressForm_iff {f : Reg → BitVec 16 → Instr} {g : Reg → Reg → Instr} :
    (∃ i, addressForm f g a b = some i) ↔
      a.isSome = true ∧ shapeOfB b ∈ [Shape.memoryAddress, .registerIndirect] := by
  rcases a with _ | a <;> rcases b with _ | (_ | _ | _ | _) <;> simp [addressForm, shapeOfB, Operand.shape]

theorem exists_targetForm_iff {f : BitVec 16 → Instr} {g : Reg → Instr} :
    (∃ i, targetForm f g a b = some i) ↔
      a.isSome = false ∧ shapeOfB b ∈ [Shape.memoryAddress, .registerIndirect] := by
  rcases a with _ | a <;> rcases b with _ | (_ | _ | _ | _) <;> simp [targetForm, shapeOfB, Operand.shape]

theorem exists_registerForm_iff {f : Reg → Instr} :
    (∃ i, registerForm f a b = some i) ↔ a.isSome = true ∧ shapeOfB b ∈ [Shape.none] := by
  rcases a with _ | a <;> rcases b with _ | (_ | _ | _ | _) <;> simp [registerForm, shapeOfB, Operand.shape]

theorem exists_emptyForm_iff {i : Instr} :
    (∃ j, emptyForm i a b = some j) ↔ a.isSome = false ∧ shapeOfB b ∈ [Shape.none] := by
  rcases a with _ | a <;> rcases b with _ | (_ | _ | _ | _) <;> simp [emptyForm, shapeOfB, Operand.shape]

/-- R61: operands spell a form of an opcode exactly when they are the declared ones. -/
theorem exists_formOf_iff {o : Opcode} :
    (∃ i, formOf o a b = some i) ↔ a.isSome = o.declaredA ∧ shapeOfB b ∈ o.declaredB := by
  cases o
  case mov | add | sub | and | or | xor | shl | shr | sar | cmp | div => exact exists_valueForm_iff
  case load | store | call => exact exists_addressForm_iff
  case ret => exact exists_registerForm_iff
  case halt => exact exists_emptyForm_iff
  case jmp | jz | jnz | jc | jnc | jo | jno | js | jns => exact exists_targetForm_iff

end

/-- R59, R61: a Word is an instruction of opcode `o` exactly when its fields are those of `o` and of declared operands. -/
theorem exists_decode_iff {w : Word} {o : Opcode} :
    (∃ i, decode w = .ok i ∧ i.opcode = o) ↔ fieldOP w = o.code ∧
      (∃ a, (fieldSA w, fieldRA w) = fieldsOfA a ∧ a.isSome = o.declaredA) ∧
      ∃ b, (fieldSB w, fieldBV w) = fieldsOfB b ∧ shapeOfB b ∈ o.declaredB := by
  constructor
  · rintro ⟨i, hd, rfl⟩
    obtain ⟨hop, ha, hb⟩ := decode_eq_ok.1 hd
    obtain ⟨hdeclA, hdeclB⟩ := exists_formOf_iff.1 ⟨i, formOf_eq_some.2 ⟨rfl, rfl, rfl⟩⟩
    exact ⟨hop, ⟨_, ha, hdeclA⟩, _, hb, hdeclB⟩
  · rintro ⟨hop, ⟨a, ha, hdeclA⟩, b, hb, hdeclB⟩
    obtain ⟨i, hi⟩ := exists_formOf_iff.2 ⟨hdeclA, hdeclB⟩
    obtain ⟨rfl, rfl, rfl⟩ := formOf_eq_some.1 hi
    exact ⟨i, decode_eq_ok.2 ⟨hop, ha, hb⟩, rfl⟩

/-! ### The same bit by bit -/

/-- R52: the `SB` code of a shape. -/
def Shape.code : Shape → BitVec 3
  | .none => 0
  | .register => 1
  | .immediate => 2
  | .memoryAddress => 3
  | .registerIndirect => 4

/-- R52, R55: the bits of `BV` that are zero for a shape. -/
def Shape.zeroBits : Shape → BitVec 16
  | .none => 0xFFFF
  | .register | .registerIndirect => 0xFFF8
  | .immediate | .memoryAddress => 0

/-- R53, R54: the bits of `RA` that are zero, with and without an operand A. -/
def zeroBitsOfRA (declared : Bool) : BitVec 4 := if declared then 8 else 15

/-- R53, R54: `SA` and `RA` hold an operand A, or none, as declared. -/
def FitsA (declared : Bool) (sa : BitVec 1) (ra : BitVec 4) : Prop :=
  sa = BitVec.ofBool declared ∧ ra &&& zeroBitsOfRA declared = 0

/-- R52, R55: `SB` and `BV` hold an operand B of the shape. -/
def FitsB (shape : Shape) (sb : BitVec 3) (bv : BitVec 16) : Prop :=
  sb = shape.code ∧ bv &&& shape.zeroBits = 0

section
variable {sb : BitVec 3} {sa : BitVec 1} {ra : BitVec 4} {bv : BitVec 16}

theorem fitsA_iff_fieldsOfA {declared : Bool} :
    FitsA declared sa ra ↔ ∃ a, (sa, ra) = fieldsOfA a ∧ a.isSome = declared := by
  unfold FitsA; revert sa ra declared; decide

/-- R55: the bits above bit 2 of `BV` are zero exactly when it is below 8. -/
theorem and_highBits_eq_zero_iff : bv &&& 0xFFF8#16 = 0#16 ↔ bv.toNat < 8 := by
  have hsplit : bv = bv &&& 0xFFF8#16 ||| bv &&& 7 := by
    rw [← BitVec.and_or_distrib_left]; exact BitVec.and_allOnes.symm
  have hlow : (bv &&& 7).toNat = bv.toNat % 8 := Nat.and_two_pow_sub_one_eq_mod bv.toNat 3
  constructor
  · intro h
    have hbv : bv = bv &&& 7 := by rw [h] at hsplit; exact hsplit.trans BitVec.zero_or
    rw [hbv, hlow]
    omega
  · intro h
    have hbv : bv = bv &&& 7 := BitVec.eq_of_toNat_eq (by omega)
    rw [hbv, BitVec.and_assoc]
    exact BitVec.and_zero

/-- R54, R55: `BV` is below 8 exactly when it holds a register identifier. -/
theorem lt_eight_iff_exists_reg : bv.toNat < 8 ↔ ∃ r : Reg, bv = BitVec.ofNat 16 r.val := by
  constructor
  · intro h
    exact ⟨⟨bv.toNat, h⟩, by simp⟩
  · rintro ⟨r, rfl⟩
    rw [BitVec.toNat_ofNat]
    omega

theorem and_allBits_eq_zero_iff : bv &&& 0xFFFF#16 = 0#16 ↔ bv = 0#16 := by
  rw [show bv &&& 0xFFFF#16 = bv from BitVec.and_allOnes]

/-- R52, R55: what the fields of an operand B of each shape are. -/
theorem fitsB_iff_fieldsOfB {shape : Shape} :
    FitsB shape sb bv ↔ ∃ b, (sb, bv) = fieldsOfB b ∧ shapeOfB b = shape := by
  constructor
  · rintro ⟨rfl, h⟩
    cases shape
    case none => exact ⟨none, by rw [and_allBits_eq_zero_iff.1 h]; rfl, rfl⟩
    case register =>
      obtain ⟨r, rfl⟩ := lt_eight_iff_exists_reg.1 (and_highBits_eq_zero_iff.1 h)
      exact ⟨some (.register r), rfl, rfl⟩
    case immediate => exact ⟨some (.immediate bv), rfl, rfl⟩
    case memoryAddress => exact ⟨some (.memoryAddress bv), rfl, rfl⟩
    case registerIndirect =>
      obtain ⟨r, rfl⟩ := lt_eight_iff_exists_reg.1 (and_highBits_eq_zero_iff.1 h)
      exact ⟨some (.registerIndirect r), rfl, rfl⟩
  · rintro ⟨b, hb, rfl⟩
    obtain ⟨rfl, rfl⟩ := Prod.mk.inj hb
    rcases b with _ | (r | n | n | r)
    case none => exact ⟨rfl, rfl⟩
    case some.register => exact ⟨rfl, and_highBits_eq_zero_iff.2 (lt_eight_iff_exists_reg.2 ⟨r, rfl⟩)⟩
    case some.immediate => exact ⟨rfl, BitVec.and_zero⟩
    case some.memoryAddress => exact ⟨rfl, BitVec.and_zero⟩
    case some.registerIndirect => exact ⟨rfl, and_highBits_eq_zero_iff.2 (lt_eight_iff_exists_reg.2 ⟨r, rfl⟩)⟩

/-- R59: the operand tests of `SA` and `RA`, which are relative to whether the opcode has an operand A. -/
theorem fitsA_iff_tests {declared : Bool} :
    FitsA declared sa ra ↔ ¬ ((sa = 1 ↔ declared = false) ∨ (sa = 0 ∧ ra ≠ 0) ∨ (sa = 1 ∧ 8 ≤ ra.toNat)) := by
  unfold FitsA; revert sa ra declared; decide

theorem shapeOfSB_eq_some_iff {shape : Shape} : shapeOfSB sb.toNat = some shape ↔ sb = shape.code := by
  revert sb; cases shape <;> decide

/-- R59: the operand tests of `BV`, for one shape. -/
theorem fitsB_iff_tests {shape : Shape} : FitsB shape sb bv ↔
    shapeOfSB sb.toNat = some shape ∧ ¬ ((sb = 0 ∧ bv ≠ 0) ∨ ((sb = 1 ∨ sb = 4) ∧ 8 ≤ bv.toNat)) := by
  rw [shapeOfSB_eq_some_iff]
  refine and_congr_right ?_
  rintro rfl
  cases shape
  case none => simp [Shape.code, Shape.zeroBits, and_allBits_eq_zero_iff]
  case register | registerIndirect => simp [Shape.code, Shape.zeroBits, and_highBits_eq_zero_iff]
  case immediate | memoryAddress => simp [Shape.code, Shape.zeroBits]

/-- R59: the operand tests of `SB` and `BV`, which are relative to the shapes the opcode declares. -/
theorem exists_fitsB_iff_tests {shapes : List Shape} : (∃ shape ∈ shapes, FitsB shape sb bv) ↔
    ¬ ((∀ shape ∈ shapes, shapeOfSB sb.toNat ≠ some shape) ∨ (sb = 0 ∧ bv ≠ 0) ∨
      ((sb = 1 ∨ sb = 4) ∧ 8 ≤ bv.toNat)) := by
  constructor
  · rintro ⟨shape, hmem, hfit⟩
    obtain ⟨hshape, hpass⟩ := fitsB_iff_tests.1 hfit
    exact not_or.2 ⟨fun hno => hno shape hmem hshape, hpass⟩
  · intro h
    obtain ⟨hsome, hpass⟩ := not_or.1 h
    push Not at hsome
    obtain ⟨shape, hmem, hshape⟩ := hsome
    exact ⟨shape, hmem, fitsB_iff_tests.2 ⟨hshape, hpass⟩⟩

end

/-- R59, R61: the fields of a Word that is an instruction of opcode `o`, bit by bit. -/
theorem exists_decode_iff_fits {w : Word} {o : Opcode} :
    (∃ i, decode w = .ok i ∧ i.opcode = o) ↔ fieldOP w = o.code ∧ FitsA o.declaredA (fieldSA w) (fieldRA w) ∧
      ∃ shape ∈ o.declaredB, FitsB shape (fieldSB w) (fieldBV w) := by
  rw [exists_decode_iff, fitsA_iff_fieldsOfA]
  simp only [fitsB_iff_fieldsOfB]
  refine and_congr_right' (and_congr_right' ⟨?_, ?_⟩)
  · rintro ⟨b, hb, hshape⟩
    exact ⟨_, hshape, b, hb, rfl⟩
  · rintro ⟨_, hshape, b, hb, rfl⟩
    exact ⟨b, hb, hshape⟩

/-- R59: no operand test fails exactly when the operand fields fit. -/
theorem not_operandTestFails_iff {w : Word} {o : Opcode} :
    ¬ operandTestFails o w ↔ FitsA o.declaredA (fieldSA w) (fieldRA w) ∧
      ∃ shape ∈ o.declaredB, FitsB shape (fieldSB w) (fieldBV w) := by
  rw [fitsA_iff_tests, exists_fitsB_iff_tests, ← not_or]
  simp only [operandTestFails, fieldSA, fieldRA, fieldSB, fieldBV]
  tauto

/-- R58: the operand list is operand A, if there is one, and then operand B, if there is one. -/
theorem Instr.operands_eq (i : Instr) :
    i.operands = (i.operandA.map Operand.register).toList ++ i.operandB.toList := by
  cases i <;> rfl

/-- R54: a 4-bit register identifier is read back. -/
theorem ofNat_toNat_RA (r : Reg) : Fin.ofNat 8 (BitVec.ofNat 4 r.val).toNat = r := by revert r; decide

/-- R55: a register identifier in `BV` is read back. -/
theorem ofNat_toNat_BV (r : Reg) : Fin.ofNat 8 (BitVec.ofNat 16 r.val).toNat = r := by revert r; decide

/-- R58, R59: the operands of a decoded instruction are the ones its fields spell. -/
theorem operands_eq_listOfWord {w : Word} {i : Instr} (h : decode w = .ok i) : i.operands = listOfWord w := by
  obtain ⟨-, ha, hb⟩ := decode_eq_ok.1 h
  rw [Instr.operands_eq]
  generalize i.operandA = a at ha
  generalize i.operandB = b at hb
  obtain ⟨hsa, hra⟩ : w.extractLsb' 20 1 = _ ∧ w.extractLsb' 16 4 = _ := Prod.mk.inj ha
  obtain ⟨hsb, hbv⟩ : w.extractLsb' 21 3 = _ ∧ w.extractLsb' 0 16 = _ := Prod.mk.inj hb
  simp only [listOfWord, hsa, hra, hsb, hbv]
  congr 1
  · cases a with
    | none => rfl
    | some r => exact congrArg (fun q => [Operand.register q]) (ofNat_toNat_RA r).symm
  · rcases b with _ | (r | n | n | r)
    case none | some.immediate | some.memoryAddress => rfl
    case some.register => exact congrArg (fun q => [Operand.register q]) (ofNat_toNat_BV r).symm
    case some.registerIndirect => exact congrArg (fun q => [Operand.registerIndirect q]) (ofNat_toNat_BV r).symm

/-! ### The rows of the opcode table -/

/-- R60: every opcode has a row. -/
theorem mem_opcodeTable (o : Opcode) : o ∈ opcodeTable := by cases o <;> decide

/-- R65: the bits a row fixes. -/
def rowMask (o : Opcode) (shape : Shape) : Word := packWord 0xFF 7 1 (zeroBitsOfRA o.declaredA) shape.zeroBits

/-- R65: what a row fixes them to. -/
def rowMatch (o : Opcode) (shape : Shape) : Word := packWord o.code shape.code (BitVec.ofBool o.declaredA) 0 0

/-- The 48 rows are one for each opcode and declared shape. -/
theorem tableRows_eq : tableRows =
    opcodeTable.flatMap fun o => o.declaredB.map fun shape => (o, rowMatch o shape, rowMask o shape) := rfl

theorem exists_row_iff {P : Word → Word → Prop} {o : Opcode} :
    (∃ r ∈ tableRows, r.1 = o ∧ P r.2.1 r.2.2) ↔ ∃ shape ∈ o.declaredB, P (rowMatch o shape) (rowMask o shape) := by
  rw [tableRows_eq]
  constructor
  · rintro ⟨r, hr, rfl, hP⟩
    simp only [List.mem_flatMap, List.mem_map] at hr
    obtain ⟨o, -, shape, hshape, rfl⟩ := hr
    exact ⟨shape, hshape, hP⟩
  · rintro ⟨shape, hshape, hP⟩
    exact ⟨_, List.mem_flatMap.2 ⟨o, mem_opcodeTable o, List.mem_map.2 ⟨shape, hshape, rfl⟩⟩, rfl, hP⟩

/-- R65: a Word matches a row exactly when its fields are the opcode's and fit the declared operands. -/
theorem and_rowMask_eq_rowMatch_iff {w : Word} {o : Opcode} {shape : Shape} :
    w &&& rowMask o shape = rowMatch o shape ↔ fieldOP w = o.code ∧
      FitsA o.declaredA (fieldSA w) (fieldRA w) ∧ FitsB shape (fieldSB w) (fieldBV w) := by
  have hop : fieldOP w &&& 0xFF = fieldOP w := BitVec.and_allOnes
  have hsb : fieldSB w &&& 7 = fieldSB w := BitVec.and_allOnes
  have hsa : fieldSA w &&& 1 = fieldSA w := BitVec.and_allOnes
  rw [rowMask, and_packWord, hop, hsb, hsa, rowMatch, eq_packWord_iff]
  simp only [fieldOP_packWord, fieldSB_packWord, fieldSA_packWord, fieldRA_packWord, fieldBV_packWord, FitsA, FitsB]
  tauto

/-! ### Operand assembly (R56, R57) -/

/-- R7, R56: a sign-extended field is the copies of its sign bit above the field itself. -/
theorem sext16_eq_append (v : BitVec 16) : sext16 v = (if v.msb then 0xFFFF#16 else 0#16) ++ v :=
  BitVec.signExtend_eq_append_of_le (by decide)

theorem sext16_toInt (v : BitVec 16) : (sext16 v).toInt = v.toInt := BitVec.toInt_signExtend_of_le (by decide)

/-! ### An instruction whose two operands are one register (R71), in the words of the statements -/

namespace Machine

@[simp] theorem State.setReg_getReg (s : State) (r : Reg) : s.setReg r (s.getReg r) = s := by
  simp [State.setReg, State.getReg]

/-- R15, R16: the default advance writes the wrapping successor of `pc` and no other field but `status`. -/
theorem advance_eq_afterJump (s : State) : s.advance = afterJump s (s.pc + 1) := by
  rw [State.advance, State.nextPc_eq]; rfl

theorem advance_eq_afterCompare (s : State) (f : Flags) : (s.setFlags f).advance = afterCompare s f := by
  rw [advance_eq_afterJump]; rfl

theorem advance_eq_afterAlu (s : State) (rd : Reg) (v : Word) (f : Flags) :
    ((s.setReg rd v).setFlags f).advance = afterAlu s rd v f := by
  rw [advance_eq_afterJump]; rfl

/-- R101, R108: a Word less itself. -/
theorem aluSub_self (a : Word) :
    aluSub a a = { result := 0, flags := { z := true, c := false, v := false, s := false } } := by
  simp only [aluSub, sub_self]
  rfl

/-- R104: a Word in exclusive or with itself. -/
theorem aluXor_self (a : Word) :
    aluXor a a = { result := 0, flags := { z := true, c := false, v := false, s := false } } := by
  simp only [aluXor, BitVec.xor_self]
  rfl

end Machine

/-! ### The statements about encoding -/

/-- Settles O2: the encoder packs the fields of the instruction's own opcode and operands, and packed fields are read
back. -/
theorem decodeOfEncodeIsTheInstruction : Obligations.DecodeOfEncodeIsTheInstruction := decode_encode

/-- Settles O3: a decoded Word has the fields of its instruction, and a Word is its fields. -/
theorem aLegalWordIsItsInstructionsOnlyEncoding : Obligations.ALegalWordIsItsInstructionsOnlyEncoding := by
  intro w i h
  obtain ⟨hop, ha, hb⟩ := decode_eq_ok.1 h
  obtain ⟨hsa, hra⟩ := Prod.mk.inj ha
  obtain ⟨hsb, hbv⟩ := Prod.mk.inj hb
  exact eq_packWord_iff.2 ⟨hop, hsb, hsa, hra, hbv⟩

/-- Settles O4: the operand tests pass exactly when the operand fields fit the opcode, and then the Word decodes. -/
theorem decoderFollowsItsTests : Obligations.DecoderFollowsItsTests := by
  intro w
  refine ⟨fun hno => decode_eq_invalidOpcode_iff.2 fun o => (hno o).symm, fun o hop => ⟨fun hfail => ?_, fun hpass => ?_⟩⟩
  · refine decode_eq_invalidOperand hop.symm fun hok => ?_
    exact not_operandTestFails_iff.2 (exists_decode_iff_fits.1 hok).2 hfail
  · obtain ⟨i, hd, hi⟩ := exists_decode_iff_fits.2 ⟨hop.symm, not_operandTestFails_iff.1 hpass⟩
    exact ⟨i, hd, hi, operands_eq_listOfWord hd⟩

/-- R62: the listed values are the ones the opcode map leaves unassigned. -/
theorem unassigned_iff_opcodeOf_eq_none : ∀ op : BitVec 8,
    (op.toNat = 0x00 ∨ (0x04 ≤ op.toNat ∧ op.toNat ≤ 0x0F) ∨ (0x1A ≤ op.toNat ∧ op.toNat ≤ 0x1F) ∨
      (0x29 ≤ op.toNat ∧ op.toNat ≤ 0x2F) ∨ (0x32 ≤ op.toNat ∧ op.toNat ≤ 0xFE)) ↔ opcodeOf op = none := by
  decide

/-- Settles O5: the listed values are the ones without an opcode, and those alone give the opcode fault. -/
theorem unassignedOpcodesAlwaysFault : Obligations.UnassignedOpcodesAlwaysFault := fun w =>
  (unassigned_iff_opcodeOf_eq_none (fieldOP w)).trans (opcodeOf_eq_none.trans decode_eq_invalidOpcode_iff.symm)

/-- Settles O6: a row matches exactly the Words whose fields are its opcode's and fit its shape. -/
theorem decodeSucceedsExactlyOnTableRows : Obligations.DecodeSucceedsExactlyOnTableRows := by
  intro w o
  rw [exists_row_iff (P := fun bits mask => w &&& mask = bits), exists_decode_iff_fits]
  simp only [and_rowMask_eq_rowMatch_iff]
  constructor
  · rintro ⟨hop, ha, shape, hmem, hb⟩
    exact ⟨shape, hmem, hop, ha, hb⟩
  · rintro ⟨shape, hmem, hop, ha, hb⟩
    exact ⟨hop, ha, shape, hmem, hb⟩

/-- Settles O27: by the two halves of a sign extension, and because neither extension changes what the field means. -/
theorem operandsAreAssembledAsStated : Obligations.OperandsAreAssembledAsStated := by
  refine ⟨fun r s => ⟨rfl, rfl⟩, fun v => ?_, fun v => ?_⟩
  · have hint : (valueImm v).toInt = v.toInt := sext16_toInt v
    refine ⟨?_, ?_, ?_, ?_, ?_⟩
    · rw [hint, BitVec.toInt_eq_msb_cond]
      cases v.msb <;> simp
    · rw [hint]; exact BitVec.le_toInt v
    · rw [hint]; exact BitVec.toInt_le
    · rw [valueImm, sext16_eq_append]
      exact BitVec.extractLsb'_append_eq_left
    · rw [valueImm, sext16_eq_append]
      exact BitVec.extractLsb'_append_eq_right
  · have := v.isLt
    rw [addressMem, zext16, BitVec.toNat_setWidth]
    omega

/-- Settles O1: the decoder computes each answer. -/
theorem vectorWordsDecodeAsListed : Obligations.VectorWordsDecodeAsListed :=
  ⟨rfl, rfl, rfl, rfl, rfl, rfl, rfl, rfl, rfl, rfl, rfl, rfl, rfl⟩

/-- Settles O48: a register written with its own value is unchanged, and the ALU on two equal operands gives 0. -/
theorem instructionIdentities : Obligations.InstructionIdentities := by
  intro s r
  refine ⟨?_, ?_, ?_, ?_, rfl⟩
  · rw [exec_eq_next, after_movReg, valueReg, State.setReg_getReg, advance_eq_afterJump]
  · rw [exec_eq_next, after_xorReg, valueReg, aluXor_self, advance_eq_afterAlu]
  · rw [exec_eq_next, after_subReg, valueReg, aluSub_self, advance_eq_afterAlu]
  · rw [exec_eq_next, after_cmpReg, valueReg, aluSub_self, advance_eq_afterCompare]

end Sys2Proof

/-! ## Data movement

The Word of an instruction as its row of the opcode table plus its operand fields, which every statement about encodings can
cite, and the effects of `MOV`, `LOAD` and `STORE` (40_data_movement.md) in the words of the statements. -/

namespace Sys2Proof

open Machine Claims

/-! ### The Word of an instruction -/

theorem fieldsOfA_fst (a : Option Reg) : (fieldsOfA a).1 = BitVec.ofBool a.isSome := by cases a <;> rfl

theorem fieldsOfB_fst (b : Option Operand) : (fieldsOfB b).1 = (shapeOfB b).code := by
  rcases b with _ | (_ | _ | _ | _) <;> rfl

/-- R61: an instruction has the operand A its opcode declares. -/
theorem Instr.isSome_operandA (i : Instr) : i.operandA.isSome = i.opcode.declaredA :=
  (exists_formOf_iff.1 ⟨i, formOf_eq_some.2 ⟨rfl, rfl, rfl⟩⟩).1

/-- R50, R65: an instruction's Word is what its row fixes, with the operands in `RA` and `BV`. -/
theorem encode_toNat (i : Instr) : (encode i).toNat = (rowMatch i.opcode (shapeOfB i.operandB)).toNat +
    (fieldsOfA i.operandA).2.toNat * 2 ^ 16 + (fieldsOfB i.operandB).2.toNat := by
  rw [encode, rowMatch, packWord_toNat, packWord_toNat, fieldsOfA_fst, fieldsOfB_fst, Instr.isSome_operandA]
  simp only [BitVec.toNat_zero, BitVec.ofNat_eq_ofNat]
  omega

/-- R50, R59, R65: a number made of the row of an instruction and of its operand fields spells it. -/
theorem spells_of_row {i : Instr} {row ra bv : Nat} (o : Opcode) (shape : Shape)
    (hi : i.opcode = o ∧ shapeOfB i.operandB = shape) (hrow : (rowMatch o shape).toNat = row)
    (hra : (fieldsOfA i.operandA).2.toNat = ra) (hbv : (fieldsOfB i.operandB).2.toNat = bv) :
    Spells (row + ra * 2 ^ 16 + bv) i := by
  obtain ⟨rfl, rfl⟩ := hi
  rw [Spells, ← hrow, ← hra, ← hbv, ← encode_toNat, BitVec.ofNat_toNat, BitVec.setWidth_eq, decode_encode]

/-- R54: a register identifier fits the field `RA`. -/
theorem toNat_ofNat_RA (r : Reg) : (BitVec.ofNat 4 r.val).toNat = r.val := by revert r; decide

/-- R55: a register identifier fits the field `BV`. -/
theorem toNat_ofNat_BV (r : Reg) : (BitVec.ofNat 16 r.val).toNat = r.val := by revert r; decide

/-! ### The effects in the words of the statements -/

namespace Machine

theorem advance_eq_afterMove (s : State) (rd : Reg) (v : Word) : (s.setReg rd v).advance = afterMove s rd v := by
  rw [advance_eq_afterJump]; rfl

/-- R81: a move completes in every state. -/
theorem moveValue_eq (rd : Reg) (v : Word) (s : State) : moveValue rd v s = .next (afterMove s rd v) := by
  rw [moveValue, advance_eq_afterMove]

/-- R82: a load from an address inside memory moves the cell's Word. -/
theorem loadFrom_eq_afterMove {s : State} {ea : Word} (rd : Reg) (h : ea.toNat < s.memSize) :
    loadFrom rd ea s = .next (afterMove s rd (s.mem.read ea.toNat)) := by
  rw [loadFrom_inside rd h, advance_eq_afterMove]

end Machine

/-! ### The statements about data movement -/

/-- Settles O30: both forms store to their effective address, and a store writes that cell or takes the fault. -/
theorem storeWritesTheAddressedWord : Obligations.StoreWritesTheAddressedWord := by
  intro s rs rb addr
  refine ⟨?_, ?_, fun i ea hi => ?_⟩
  · exact spells_of_row .store .memoryAddress ⟨rfl, rfl⟩ rfl (toNat_ofNat_RA rs) rfl
  · exact spells_of_row .store .registerIndirect ⟨rfl, rfl⟩ rfl (toNat_ofNat_RA rs) (toNat_ofNat_BV rb)
  · have hexec : exec i s = storeTo rs ea s := by
      rcases hi with ⟨rfl, rfl⟩ | ⟨rfl, rfl⟩ <;> rfl
    rw [hexec]
    refine ⟨fun hin => ?_, storeTo_outside rs⟩
    exact ⟨_, storeTo_inside rs hin, s.mem.read_write ea.toNat (s.getReg rs), rfl, rfl, s.nextPc_eq, rfl, rfl⟩

/-- Settles O28: both forms move the value of their operand B. -/
theorem movCopiesItsSource : Obligations.MovCopiesItsSource := by
  intro s rd rs imm
  refine ⟨?_, ?_, moveValue_eq rd (valueReg rs s) s, moveValue_eq rd (valueImm imm) s⟩
  · exact spells_of_row .mov .register ⟨rfl, rfl⟩ rfl (toNat_ofNat_RA rd) (toNat_ofNat_BV rs)
  · exact spells_of_row .mov .immediate ⟨rfl, rfl⟩ rfl (toNat_ofNat_RA rd) rfl

/-- Settles O29: both forms load from their effective address, and a load moves that cell's Word or takes the fault. -/
theorem loadReadsTheAddressedWord : Obligations.LoadReadsTheAddressedWord := by
  intro s rd rb addr
  refine ⟨?_, ?_, loadFrom_eq_afterMove rd, loadFrom_eq_afterMove rd, loadFrom_outside rd, loadFrom_outside rd⟩
  · exact spells_of_row .load .memoryAddress ⟨rfl, rfl⟩ rfl (toNat_ofNat_RA rd) rfl
  · exact spells_of_row .load .registerIndirect ⟨rfl, rfl⟩ rfl (toNat_ofNat_RA rd) (toNat_ofNat_BV rb)

end Sys2Proof

/-! ## Arithmetic and logic

The ALU of 41_alu.md in the words of the statements: each operator's result and flags as one equation, the shifts for the whole
uncut count, and the effect of an arithmetic/logic instruction from its operator's equation. -/

namespace Sys2Proof

open Machine Claims

/-! ### The Words of the two forms -/

/-- R96: the Word of a register form. -/
theorem spells_rd_rs {i : Instr} {rd rs : Reg} {row : Nat} (o : Opcode)
    (hi : i.opcode = o ∧ i.operandA = some rd ∧ i.operandB = some (.register rs))
    (hrow : (rowMatch o .register).toNat = row) : Spells (row + rd.val * 2 ^ 16 + rs.val) i := by
  obtain ⟨ho, ha, hb⟩ := hi
  refine spells_of_row o .register ⟨ho, by rw [hb]; rfl⟩ hrow ?_ ?_
  · rw [ha]; exact toNat_ofNat_RA rd
  · rw [hb]; exact toNat_ofNat_BV rs

/-- R96: the Word of an immediate form. -/
theorem spells_rd_imm {i : Instr} {rd : Reg} {imm : BitVec 16} {row : Nat} (o : Opcode)
    (hi : i.opcode = o ∧ i.operandA = some rd ∧ i.operandB = some (.immediate imm))
    (hrow : (rowMatch o .immediate).toNat = row) : Spells (row + rd.val * 2 ^ 16 + imm.toNat) i := by
  obtain ⟨ho, ha, hb⟩ := hi
  refine spells_of_row o .immediate ⟨ho, by rw [hb]; rfl⟩ hrow ?_ ?_
  · rw [ha]; exact toNat_ofNat_RA rd
  · rw [hb]; rfl

/-! ### Sum and difference -/

/-- R93: an unsigned result that is not negative overflows from `2^32` up. -/
theorem unsignedOverflow_natCast (n : Nat) : unsignedOverflow n = decide (2 ^ 32 ≤ n) := by
  rw [unsignedOverflow, decide_eq_decide]
  omega

/-- R93: a difference overflows exactly when there is a borrow. -/
theorem unsignedOverflow_sub (a b : Word) :
    unsignedOverflow (unsignedOf a - unsignedOf b) = decide (a.toNat < b.toNat) := by
  have := a.isLt
  rw [unsignedOverflow, unsignedOf, unsignedOf, decide_eq_decide]
  omega

/-- R94: a signed sum overflows exactly when the signs of the operands agree and the result's differs. -/
theorem signedOverflow_add (a b : Word) :
    signedOverflow (signedOf a + signedOf b) = decide (a.msb = b.msb ∧ (a + b).msb ≠ a.msb) := by
  have hlib : signedOverflow (signedOf a + signedOf b) = a.saddOverflow b := by
    rw [signedOverflow, signedOf, signedOf, BitVec.saddOverflow, ← Bool.decide_or, decide_eq_decide]
    omega
  -- The library's Boolean formula of the three signs, against the statement's.
  rw [hlib, BitVec.saddOverflow_eq]
  cases a.msb <;> cases b.msb <;> simp

/-- R94: a signed difference overflows exactly when the signs of the operands differ and the result's is not the first's. -/
theorem signedOverflow_sub (a b : Word) :
    signedOverflow (signedOf a - signedOf b) = decide (a.msb ≠ b.msb ∧ (a - b).msb ≠ a.msb) := by
  have hlib : signedOverflow (signedOf a - signedOf b) = a.ssubOverflow b := by
    rw [signedOverflow, signedOf, signedOf, BitVec.ssubOverflow, ← Bool.decide_or, decide_eq_decide]
    omega
  -- As for the sum.
  rw [hlib, BitVec.ssubOverflow_eq]
  cases a.msb <;> cases b.msb <;> simp

/-- R100. -/
theorem aluAdd_eq (a b : Word) : aluAdd a b = { result := a + b, flags := sumFlags a b } := by
  have hc : unsignedOverflow (unsignedOf a + unsignedOf b) = decide (2 ^ 32 ≤ a.toNat + b.toNat) :=
    unsignedOverflow_natCast (a.toNat + b.toNat)
  simp only [aluAdd, flagsOf, hc, signedOverflow_add, wrap_add, wrap_unsignedOf, sumFlags]

/-- R101, R108. -/
theorem aluSub_eq (a b : Word) : aluSub a b = { result := a - b, flags := differenceFlags a b } := by
  simp only [aluSub, flagsOf, unsignedOverflow_sub, signedOverflow_sub, wrap_sub, wrap_unsignedOf, differenceFlags]

/-- R108: the sign of a difference, corrected by its overflow, is the order of the signed operands. -/
theorem differenceFlags_s_ne_v (a b : Word) :
    (differenceFlags a b).s ≠ (differenceFlags a b).v ↔ a.toInt < b.toInt := by
  have hv : (differenceFlags a b).v = signedOverflow (a.toInt - b.toInt) := (signedOverflow_sub a b).symm
  have hs : (differenceFlags a b).s = decide ((a.toInt - b.toInt).bmod (2 ^ 32) < 0) := by
    rw [← BitVec.toInt_sub, ← BitVec.msb_eq_toInt]; rfl
  have := a.toInt_lt
  have := a.le_toInt
  have := b.toInt_lt
  have := b.le_toInt
  rw [hv, hs, signedOverflow, ne_eq, decide_eq_decide, Int.bmod]
  omega

/-! ### Shifts

The model computes with the count cut at 32; every count from 32 up gives the result and the flags of 32, so the cut can be
undone. -/

/-- R105 to R107: the cut at 32 is invisible to what no longer changes from 32 up. -/
theorem apply_min_width {α : Type} (f : Nat → α) (h : ∀ n, 32 ≤ n → f n = f 32) (n : Nat) : f (min n 32) = f n := by
  rcases le_total n 32 with hn | hn
  · rw [min_eq_left hn]
  · rw [min_eq_right hn, h n hn]

theorem shiftFactor_eq (b : Word) : shiftFactor b = ((2 ^ min b.toNat 32 : Nat) : Int) := rfl

section
variable (a : Word) {n : Nat}

/-- R105: a shift by the full width or more leaves no bit. -/
theorem ofNat_mul_two_pow_wide (hn : 32 ≤ n) : BitVec.ofNat 32 (a.toNat * 2 ^ n) = 0 := by
  refine BitVec.eq_of_toNat_eq ?_
  rw [BitVec.toNat_ofNat, Nat.mod_eq_zero_of_dvd (Dvd.dvd.mul_left (Nat.pow_dvd_pow 2 hn) _)]
  rfl

/-- R105, R93: at the full width and above, a product overflows exactly when it is not 0. -/
theorem carry_shl_wide (hn : 32 ≤ n) : 2 ^ 32 ≤ a.toNat * 2 ^ n ↔ a.toNat ≠ 0 := by
  have hpow : 2 ^ 32 ≤ 2 ^ n := Nat.pow_le_pow_right (by decide) hn
  constructor
  · intro h ha
    simp [ha] at h
  · intro ha
    exact hpow.trans (Nat.le_mul_of_pos_left _ (Nat.pos_of_ne_zero ha))

/-- R105, R94: the same of the signed product. -/
theorem overflow_shl_wide (hn : 32 ≤ n) :
    a.toInt * 2 ^ n < -2 ^ 31 ∨ 2 ^ 31 - 1 < a.toInt * 2 ^ n ↔ a.toNat ≠ 0 := by
  have hpow : (2 : Int) ^ 32 ≤ 2 ^ n := pow_le_pow_right₀ (by decide) hn
  have hzero : a.toInt = 0 ↔ a.toNat = 0 := by
    have := a.isLt
    rw [BitVec.toInt_eq_toNat_cond]
    omega
  rw [Ne, ← hzero]
  rcases lt_trichotomy a.toInt 0 with ha | ha | ha
  · have : a.toInt * 2 ^ n ≤ -2 ^ 32 := by nlinarith
    omega
  · simp [ha]
  · have : 2 ^ 32 ≤ a.toInt * 2 ^ n := by nlinarith
    omega

/-- R105: what the flags say at the full width and above. -/
theorem shlFlags_wide (hn : 32 ≤ n) :
    shlFlags a n = { z := true, c := decide (a.toNat ≠ 0), v := decide (a.toNat ≠ 0), s := false } := by
  simp only [shlFlags, ofNat_mul_two_pow_wide a hn, carry_shl_wide a hn, overflow_shl_wide a hn]
  rfl

/-- R105, "as bits": Carry says that some of the top `n` bits is 1. -/
theorem carry_shl_bits (hn : n ≤ 31) : 2 ^ 32 ≤ a.toNat * 2 ^ n ↔ a.toNat / 2 ^ (32 - n) ≠ 0 := by
  have hsplit : 2 ^ 32 = 2 ^ (32 - n) * 2 ^ n := by rw [← pow_add]; congr 1; omega
  rw [hsplit, Nat.mul_le_mul_right_iff (by positivity), Nat.div_ne_zero_iff]
  simp

/-- R105, "as bits": Overflow says that the top `n + 1` bits are not all equal. With `p = 2^(31 - n)`, both say that the signed
operand lies outside `[-p, p - 1]`. -/
theorem overflow_shl_bits (hn : n ≤ 31) :
    a.toInt * 2 ^ n < -2 ^ 31 ∨ 2 ^ 31 - 1 < a.toInt * 2 ^ n ↔
      a.toNat / 2 ^ (31 - n) ≠ 0 ∧ a.toNat / 2 ^ (31 - n) ≠ 2 ^ (n + 1) - 1 := by
  have hsplit : 2 ^ (31 - n) * 2 ^ n = 2 ^ 31 := by rw [← pow_add, Nat.sub_add_cancel hn]
  have hp : 0 < 2 ^ (31 - n) := by positivity
  have hq : 0 < 2 ^ n := by positivity
  generalize 2 ^ (31 - n) = p at *
  have hsplit' : (p : Int) * 2 ^ n = 2 ^ 31 := by exact_mod_cast hsplit
  have hmin : a.toInt * 2 ^ n < -2 ^ 31 ↔ a.toInt < -p := by
    rw [← hsplit', ← neg_mul, mul_lt_mul_iff_left₀ (by positivity)]
  have hmax : 2 ^ 31 - 1 < a.toInt * 2 ^ n ↔ p ≤ a.toInt := by
    rw [Int.sub_one_lt_iff, ← hsplit', mul_le_mul_iff_left₀ (by positivity)]
  have htop : 2 ^ (n + 1) * p = 2 ^ 32 := by
    calc 2 ^ (n + 1) * p = 2 * (p * 2 ^ n) := by ring
      _ = 2 ^ 32 := by rw [hsplit]; rfl
  have hones : a.toNat / p ≠ 2 ^ (n + 1) - 1 ↔ a.toNat < 2 ^ 32 - p := by
    have hlt : a.toNat / p < 2 ^ (n + 1) := (Nat.div_lt_iff_lt_mul hp).2 (htop ▸ a.isLt)
    rw [← htop, ← Nat.sub_one_mul, ← Nat.div_lt_iff_lt_mul hp]
    omega
  rw [hmin, hmax, hones, Nat.div_ne_zero_iff, BitVec.toInt_eq_toNat_cond]
  have hle : p ≤ 2 ^ 31 := hsplit ▸ Nat.le_mul_of_pos_right p hq
  have := a.isLt
  omega

/-- R105: at count 0 nothing is shifted out. -/
theorem shlFlags_zero : (shlFlags a 0).c = false ∧ (shlFlags a 0).v = false := by
  have := a.isLt
  have := a.toInt_lt
  have := a.le_toInt
  simp only [shlFlags, pow_zero, mul_one, decide_eq_false_iff_not]
  omega

/-- R106: nothing is left of a Word at the full width and above. -/
theorem toNat_div_two_pow_wide (hn : 32 ≤ n) : a.toNat / 2 ^ n = 0 :=
  Nat.div_eq_of_lt (a.isLt.trans_le (Nat.pow_le_pow_right (by decide) hn))

/-- R107: from one less than the width on, only the sign is left. -/
theorem toInt_fdiv_two_pow_wide (hn : 31 ≤ n) : a.toInt.fdiv (2 ^ n) = if a.msb then -1 else 0 := by
  have hpow : (2 : Int) ^ 31 ≤ 2 ^ n := pow_le_pow_right₀ (by decide) hn
  have hlt := a.toInt_lt
  have hle := a.le_toInt
  rw [Int.fdiv_eq_ediv_of_nonneg _ (by positivity), BitVec.msb_eq_toInt]
  by_cases hneg : a.toInt < 0
  · simpa [hneg] using Int.ediv_eq_neg_one_of_neg_of_le hneg (by omega)
  · simpa [hneg] using Int.ediv_eq_zero_of_lt (by omega) (by omega)

/-- R107: an arithmetic shift keeps the sign. -/
theorem msb_ofInt_fdiv_two_pow (n : Nat) : (BitVec.ofInt 32 (a.toInt.fdiv (2 ^ n))).msb = a.msb := by
  have hlib : BitVec.ofInt 32 (a.toInt.fdiv (2 ^ n)) = a.sshiftRight n := by
    rw [BitVec.sshiftRight_eq, Int.shiftRight_eq_div_pow, Int.fdiv_eq_ediv_of_nonneg _ (by positivity)]
    push_cast
    rfl
  rw [hlib, BitVec.msb_sshiftRight]

end

/-- R105. -/
theorem aluShl_eq (a b : Word) : aluShl a b =
    { result := BitVec.ofNat 32 (a.toNat * 2 ^ b.toNat), flags := shlFlags a b.toNat } := by
  rw [← apply_min_width (fun n => AluOut.mk (BitVec.ofNat 32 (a.toNat * 2 ^ n)) (shlFlags a n))]
  · have hprod : unsignedOf a * shiftFactor b = ((a.toNat * 2 ^ min b.toNat 32 : Nat) : Int) := by
      rw [shiftFactor_eq, unsignedOf, Nat.cast_mul]
    have hv : signedOverflow (signedOf a * shiftFactor b) = (shlFlags a (min b.toNat 32)).v := by
      rw [shiftFactor_eq, signedOf, Nat.cast_pow, signedOverflow, shlFlags, decide_eq_decide]
      norm_num
    simp only [aluShl, flagsOf, hprod, hv, wrap_natCast, unsignedOverflow_natCast]
    rfl
  · intro n hn
    simp only [ofNat_mul_two_pow_wide a hn, ofNat_mul_two_pow_wide a le_rfl, shlFlags_wide a hn, shlFlags_wide a le_rfl]

/-- R106. -/
theorem aluShr_eq (a b : Word) : aluShr a b =
    { result := BitVec.ofNat 32 (a.toNat / 2 ^ b.toNat), flags := fitFlags (BitVec.ofNat 32 (a.toNat / 2 ^ b.toNat)) } := by
  have hcut : a.toNat / 2 ^ min b.toNat 32 = a.toNat / 2 ^ b.toNat := by
    refine apply_min_width (fun n => a.toNat / 2 ^ n) (fun n hn => ?_) _
    rw [toNat_div_two_pow_wide a hn, toNat_div_two_pow_wide a le_rfl]
  have hr : wrap (Int.fdiv (unsignedOf a) (shiftFactor b)) = BitVec.ofNat 32 (a.toNat / 2 ^ b.toNat) := by
    rw [shiftFactor_eq, unsignedOf, ← Int.ofNat_fdiv, wrap_natCast, hcut]
  simp only [aluShr, hr]
  rfl

/-- R107. -/
theorem aluSar_eq (a b : Word) : aluSar a b =
    { result := BitVec.ofInt 32 (a.toInt.fdiv (2 ^ b.toNat)),
      flags := fitFlags (BitVec.ofInt 32 (a.toInt.fdiv (2 ^ b.toNat))) } := by
  have hcut : a.toInt.fdiv (2 ^ min b.toNat 32) = a.toInt.fdiv (2 ^ b.toNat) := by
    refine apply_min_width (fun n => a.toInt.fdiv (2 ^ n)) (fun n hn => ?_) _
    rw [toInt_fdiv_two_pow_wide a (by omega), toInt_fdiv_two_pow_wide a (by decide)]
  have hr : wrap (Int.fdiv (signedOf a) (shiftFactor b)) = BitVec.ofInt 32 (a.toInt.fdiv (2 ^ b.toNat)) := by
    rw [shiftFactor_eq, signedOf, Nat.cast_pow, Nat.cast_ofNat, hcut, wrap]
  simp only [aluSar, hr]
  rfl

/-! ### The effects in the words of the statements -/

namespace Machine

/-- R96: an arithmetic/logic instruction completes with what its operator yields. -/
theorem aluInto_eq_afterAlu {o : AluOut} {r : Word} {f : Flags} (rd : Reg) (s : State)
    (h : o = { result := r, flags := f }) : aluInto rd o s = .next (afterAlu s rd r f) := by
  rw [h, aluInto, advance_eq_afterAlu]

/-- R108: a compare completes with the flags of the difference. -/
theorem aluFlagsOnly_sub_eq (a b : Word) (s : State) :
    aluFlagsOnly (aluSub a b) s = .next (afterCompare s (differenceFlags a b)) := by
  rw [aluSub_eq, aluFlagsOnly, advance_eq_afterCompare]

@[simp] theorem getReg_afterAlu (s : State) (rd : Reg) (v : Word) (f : Flags) : (afterAlu s rd v f).getReg rd = v :=
  s.getReg_setReg_same rd v

/-- R109: a division by anything but 0. -/
theorem divInto_nonzero (rd : Reg) (a : Word) {b : Word} (s : State) (h : b ≠ 0) : aluIntoOrFault rd (aluDiv a b) s =
    .next (afterAlu s rd (BitVec.ofNat 32 (a.toNat / b.toNat)) (fitFlags (BitVec.ofNat 32 (a.toNat / b.toNat)))) := by
  have hr : wrap (Int.fdiv (unsignedOf a) (unsignedOf b)) = BitVec.ofNat 32 (a.toNat / b.toNat) := by
    rw [unsignedOf, unsignedOf, ← Int.ofNat_fdiv, wrap_natCast]
  rw [aluDiv_nonzero a h, hr]
  exact aluInto_eq_afterAlu rd s rfl

/-- R91, R92: Z and S of what an operator yields are those of its result. -/
def AluOut.Described (o : AluOut) : Prop := o.flags.z = decide (o.result = 0) ∧ o.flags.s = o.result.msb

/-- R91, R92, R96: an ALU instruction other than `CMP` writes a described result to operand A's register, or faults. -/
theorem exec_alu_cases {i : Instr} {rd : Reg} (s : State) (halu : isAlu i.opcode) (hcmp : i.opcode ≠ .cmp)
    (hrd : i.operandA = some rd) :
    (∃ o : AluOut, o.Described ∧ exec i s = aluInto rd o s) ∨ ∃ f, exec i s = .next (s.raise f) := by
  have hdiv (a b : Word) : (∃ o : AluOut, o.Described ∧ aluIntoOrFault rd (aluDiv a b) s = aluInto rd o s) ∨
      ∃ f, aluIntoOrFault rd (aluDiv a b) s = .next (s.raise f) := by
    by_cases hb : b = 0
    · subst hb
      exact .inr ⟨_, rfl⟩
    · rw [aluDiv_nonzero a hb]
      exact .inl ⟨_, ⟨rfl, rfl⟩, rfl⟩
  cases i
  case addReg | addImm | subReg | subImm | andReg | andImm | orReg | orImm | xorReg | xorImm | shlReg | shlImm
      | shrReg | shrImm | sarReg | sarImm =>
    cases hrd
    exact .inl ⟨_, ⟨rfl, rfl⟩, rfl⟩
  case divReg | divImm =>
    cases hrd
    exact hdiv _ _
  case cmpReg | cmpImm => exact absurd rfl hcmp
  all_goals simp [isAlu, Instr.opcode] at halu

end Machine

/-! ### The statements about arithmetic and logic -/

/-- Settles O32: both forms write the sum of operand A's register and operand B. -/
theorem addWrapsAndSetsFlags : Obligations.AddWrapsAndSetsFlags := fun s rd _ _ =>
  ⟨spells_rd_rs .add ⟨rfl, rfl, rfl⟩ rfl, spells_rd_imm .add ⟨rfl, rfl, rfl⟩ rfl,
    aluInto_eq_afterAlu rd s (aluAdd_eq _ _), aluInto_eq_afterAlu rd s (aluAdd_eq _ _)⟩

/-- Settles O33: both forms write the difference of operand A's register and operand B. -/
theorem subWrapsAndSetsFlags : Obligations.SubWrapsAndSetsFlags := fun s rd _ _ =>
  ⟨spells_rd_rs .sub ⟨rfl, rfl, rfl⟩ rfl, spells_rd_imm .sub ⟨rfl, rfl, rfl⟩ rfl,
    aluInto_eq_afterAlu rd s (aluSub_eq _ _), aluInto_eq_afterAlu rd s (aluSub_eq _ _)⟩

/-- Settles O34: both forms write the flags of the difference alone. -/
theorem cmpSetsTheFlagsOfSubAndWritesNoRegister : Obligations.CmpSetsTheFlagsOfSubAndWritesNoRegister :=
  fun s _ _ _ => ⟨spells_rd_rs .cmp ⟨rfl, rfl, rfl⟩ rfl, spells_rd_imm .cmp ⟨rfl, rfl, rfl⟩ rfl,
    aluFlagsOnly_sub_eq _ _ s, aluFlagsOnly_sub_eq _ _ s⟩

/-- Settles O35: a difference is 0 exactly for equal operands, borrows exactly when unsigned below, and its sign corrected by
the overflow is the signed order. -/
theorem cmpFlagsOrderTheOperands : Obligations.CmpFlagsOrderTheOperands := by
  intro s rd rs imm i b hi
  have hexec : exec i s = aluFlagsOnly (aluSub s.regs[rd.val] b) s := by
    rcases hi with ⟨rfl, rfl⟩ | ⟨rfl, rfl⟩ <;> rfl
  refine ⟨_, hexec.trans (aluFlagsOnly_sub_eq _ _ s), ?_, decide_eq_true_iff, differenceFlags_s_ne_v _ _⟩
  exact decide_eq_true_iff.trans sub_eq_zero

/-- Settles O36: each operator in both forms. -/
theorem logicInstructionsAreBitwise : Obligations.LogicInstructionsAreBitwise := fun s rd _ _ =>
  ⟨spells_rd_rs .and ⟨rfl, rfl, rfl⟩ rfl, spells_rd_imm .and ⟨rfl, rfl, rfl⟩ rfl,
    aluInto_eq_afterAlu rd s rfl, aluInto_eq_afterAlu rd s rfl,
    spells_rd_rs .or ⟨rfl, rfl, rfl⟩ rfl, spells_rd_imm .or ⟨rfl, rfl, rfl⟩ rfl,
    aluInto_eq_afterAlu rd s rfl, aluInto_eq_afterAlu rd s rfl,
    spells_rd_rs .xor ⟨rfl, rfl, rfl⟩ rfl, spells_rd_imm .xor ⟨rfl, rfl, rfl⟩ rfl,
    aluInto_eq_afterAlu rd s rfl, aluInto_eq_afterAlu rd s rfl⟩

/-- Settles O37: the product for the uncut count, in both forms. -/
theorem shlMultipliesByTheUnmaskedPower : Obligations.ShlMultipliesByTheUnmaskedPower := fun s rd _ _ =>
  ⟨spells_rd_rs .shl ⟨rfl, rfl, rfl⟩ rfl, spells_rd_imm .shl ⟨rfl, rfl, rfl⟩ rfl,
    aluInto_eq_afterAlu rd s (aluShl_eq _ _), aluInto_eq_afterAlu rd s (aluShl_eq _ _)⟩

/-- Settles O38: the flags of the exact products, read as bits below the full width, and saturated from there up. -/
theorem shlFlagsAsBits : Obligations.ShlFlagsAsBits := by
  intro s rd rs a n
  obtain ⟨-, -, hexec, -⟩ := shlMultipliesByTheUnmaskedPower s rd rs 0
  refine ⟨_, hexec, fun hn => ?_, fun _ hn => ?_, fun hn => ?_⟩
  · change (shlFlags _ n).c = false ∧ (shlFlags _ n).v = false
    rw [hn]
    exact shlFlags_zero _
  · exact ⟨decide_eq_true_iff.trans (carry_shl_bits _ hn), decide_eq_true_iff.trans (overflow_shl_bits _ hn)⟩
  · have hzero := ofNat_mul_two_pow_wide s.regs[rd.val] hn
    exact ⟨(getReg_afterAlu ..).trans hzero, decide_eq_true hzero, decide_eq_true_iff.trans (carry_shl_wide _ hn),
      decide_eq_true_iff.trans (overflow_shl_wide _ hn)⟩

/-- Settles O39: the quotient for the uncut count, in both forms. -/
theorem shrDividesUnsignedByThePower : Obligations.ShrDividesUnsignedByThePower := fun s rd _ _ =>
  ⟨spells_rd_rs .shr ⟨rfl, rfl, rfl⟩ rfl, spells_rd_imm .shr ⟨rfl, rfl, rfl⟩ rfl,
    aluInto_eq_afterAlu rd s (aluShr_eq _ _), aluInto_eq_afterAlu rd s (aluShr_eq _ _)⟩

/-- Settles O40: the signed quotient for the uncut count, in both forms. -/
theorem sarDividesSignedByThePowerRoundingDown : Obligations.SarDividesSignedByThePowerRoundingDown := fun s rd _ _ =>
  ⟨spells_rd_rs .sar ⟨rfl, rfl, rfl⟩ rfl, spells_rd_imm .sar ⟨rfl, rfl, rfl⟩ rfl,
    aluInto_eq_afterAlu rd s (aluSar_eq _ _), aluInto_eq_afterAlu rd s (aluSar_eq _ _)⟩

/-- Settles O41: a wide count leaves no bit of an unsigned quotient, and of a signed one only the sign. -/
theorem wideRightShiftsSaturate : Obligations.WideRightShiftsSaturate := by
  intro s rd rs a n
  obtain ⟨-, -, hshr, -⟩ := shrDividesUnsignedByThePower s rd rs 0
  obtain ⟨-, -, hsar, -⟩ := sarDividesSignedByThePowerRoundingDown s rd rs 0
  refine ⟨⟨_, hshr, fun hn => ?_⟩, _, hsar, msb_ofInt_fdiv_two_pow _ _, fun hn => ?_⟩
  · have hzero : BitVec.ofNat 32 (a.toNat / 2 ^ n) = 0 := congrArg _ (toNat_div_two_pow_wide a hn)
    exact ⟨(getReg_afterAlu ..).trans hzero, decide_eq_true hzero⟩
  · rw [getReg_afterAlu, toInt_fdiv_two_pow_wide _ hn]
    cases a.msb <;> rfl

/-- Settles O42: by the divisor, which both forms take from operand B. -/
theorem divGivesTheUnsignedQuotientOrFaults : Obligations.DivGivesTheUnsignedQuotientOrFaults := by
  intro s rd rs imm
  refine ⟨spells_rd_rs .div ⟨rfl, rfl, rfl⟩ rfl, spells_rd_imm .div ⟨rfl, rfl, rfl⟩ rfl, fun i b hi => ?_⟩
  have hexec : exec i s = aluIntoOrFault rd (aluDiv s.regs[rd.val] b) s := by
    rcases hi with ⟨rfl, rfl⟩ | ⟨rfl, rfl⟩ <;> rfl
  rw [hexec]
  refine ⟨divInto_nonzero rd _ s, ?_⟩
  rintro rfl
  rfl

/-- Settles O43: a completed step wrote a result its flags describe; a fault does not complete. -/
theorem zeroAndSignDescribeTheResult : Obligations.ZeroAndSignDescribeTheResult := by
  intro i s t rd h halu hcmp hrd hst
  rcases exec_alu_cases s halu hcmp hrd with ⟨o, hdesc, hexec⟩ | ⟨f, hexec⟩ <;> rw [hexec] at h <;> cases h
  · exact (getReg_afterAlu s rd o.result o.flags).symm ▸ hdesc
  · cases hst

end Sys2Proof

/-! ## Control transfer

The Words of the jump forms, which have no operand A, and the effects of `JMP`, the conditional jumps, `CALL` and `RET`
(42_control_transfer.md) in the words of the statements. -/

namespace Sys2Proof

open Machine Claims

/-! ### The Words of the target forms -/

/-- R121 to R129: the Word of a jump to a memory address. -/
theorem spells_addr {i : Instr} {addr : BitVec 16} {row : Nat} (o : Opcode)
    (hi : i.opcode = o ∧ i.operandA = none ∧ i.operandB = some (.memoryAddress addr))
    (hrow : (rowMatch o .memoryAddress).toNat = row) : Spells (row + addr.toNat) i := by
  obtain ⟨ho, ha, hb⟩ := hi
  refine spells_of_row (ra := 0) o .memoryAddress ⟨ho, by rw [hb]; rfl⟩ hrow ?_ ?_
  · rw [ha]; rfl
  · rw [hb]; rfl

/-- R121 to R129: the Word of a jump through a register. -/
theorem spells_rb {i : Instr} {rb : Reg} {row : Nat} (o : Opcode)
    (hi : i.opcode = o ∧ i.operandA = none ∧ i.operandB = some (.registerIndirect rb))
    (hrow : (rowMatch o .registerIndirect).toNat = row) : Spells (row + rb.val) i := by
  obtain ⟨ho, ha, hb⟩ := hi
  refine spells_of_row (ra := 0) o .registerIndirect ⟨ho, by rw [hb]; rfl⟩ hrow ?_ ?_
  · rw [ha]; rfl
  · rw [hb]; exact toNat_ofNat_BV rb

/-! ### The effects in the words of the statements -/

namespace Machine

/-- R121, R131: an unconditional transfer completes in every state. -/
theorem jumpTo_eq_afterJump (ea : Word) (s : State) : jumpTo ea s = .next (afterJump s ea) := rfl

/-- R122 to R129: a conditional jump, taken or not, completes and writes `pc` alone. -/
theorem jumpIf_eq_afterJump (name : FlagName) (wanted : Bool) (ea : Word) (s : State) :
    jumpIf name wanted ea s = .next (afterJump s (if s.getFlag name = wanted then ea else s.pc + 1)) := by
  rw [jumpIf, advance_eq_afterJump]
  split <;> rfl

/-- R130: a call completes in every state, with a target that is no longer read from it. -/
theorem callTo_eq (rl : Reg) (ea : Word) (s : State) : callTo rl ea s =
    .next { s with regs := s.regs.set rl.val (s.pc + 1), pc := ea, status := .running } := by
  rw [callTo, State.nextPc_eq]
  rfl

/-- R133: no control transfer checks its target, so every one completes. -/
theorem exec_controlTransfer_running {i : Instr} (s : State) (hi : isControlTransfer i.opcode) :
    ∃ t, exec i s = .next t ∧ t.status = .running ∧ t.memSize = s.memSize := by
  cases i
  case jmpMem | jmpInd | ret => exact ⟨_, jumpTo_eq_afterJump _ s, rfl, rfl⟩
  case jzMem | jzInd | jnzMem | jnzInd | jcMem | jcInd | jncMem | jncInd | joMem | joInd | jnoMem | jnoInd
      | jsMem | jsInd | jnsMem | jnsInd => exact ⟨_, jumpIf_eq_afterJump _ _ _ s, rfl, rfl⟩
  case callMem | callInd => exact ⟨_, callTo_eq _ _ s, rfl, rfl⟩
  all_goals simp [isControlTransfer, Instr.opcode] at hi

end Machine

/-! ### The statements about control transfer -/

/-- Settles O49: a transfer completes whatever its target is, and the fetch from a target outside memory faults. -/
theorem badTargetsFaultAtTheNextFetch : Obligations.BadTargetsFaultAtTheNextFetch := by
  intro i s hi
  obtain ⟨t, hexec, hrun, hsize⟩ := exec_controlTransfer_running s hi
  have hterm : terminal t.status = false := terminal_eq_false.2 (.inr hrun)
  exact ⟨t, hexec, hrun, fun hout => step_eq_raise_of_fetch_outside hterm (hsize.trans_le hout)⟩

/-- Settles O44: both forms jump to their effective address. -/
theorem jmpGoesToItsTarget : Obligations.JmpGoesToItsTarget := fun s rb addr =>
  ⟨spells_addr .jmp ⟨rfl, rfl, rfl⟩ rfl, spells_rb .jmp ⟨rfl, rfl, rfl⟩ rfl,
    jumpTo_eq_afterJump (addressMem addr) s, jumpTo_eq_afterJump (addressInd rb s) s⟩

/-- Settles O45: each opcode with its flag and the value wanted of it, in both forms. -/
theorem conditionalJumpsTestTheirFlag : Obligations.ConditionalJumpsTestTheirFlag := fun s _ _ =>
  ⟨spells_addr .jz ⟨rfl, rfl, rfl⟩ rfl, spells_rb .jz ⟨rfl, rfl, rfl⟩ rfl,
    jumpIf_eq_afterJump .zero true _ s, jumpIf_eq_afterJump .zero true _ s,
    spells_addr .jnz ⟨rfl, rfl, rfl⟩ rfl, spells_rb .jnz ⟨rfl, rfl, rfl⟩ rfl,
    jumpIf_eq_afterJump .zero false _ s, jumpIf_eq_afterJump .zero false _ s,
    spells_addr .jc ⟨rfl, rfl, rfl⟩ rfl, spells_rb .jc ⟨rfl, rfl, rfl⟩ rfl,
    jumpIf_eq_afterJump .carry true _ s, jumpIf_eq_afterJump .carry true _ s,
    spells_addr .jnc ⟨rfl, rfl, rfl⟩ rfl, spells_rb .jnc ⟨rfl, rfl, rfl⟩ rfl,
    jumpIf_eq_afterJump .carry false _ s, jumpIf_eq_afterJump .carry false _ s,
    spells_addr .jo ⟨rfl, rfl, rfl⟩ rfl, spells_rb .jo ⟨rfl, rfl, rfl⟩ rfl,
    jumpIf_eq_afterJump .overflow true _ s, jumpIf_eq_afterJump .overflow true _ s,
    spells_addr .jno ⟨rfl, rfl, rfl⟩ rfl, spells_rb .jno ⟨rfl, rfl, rfl⟩ rfl,
    jumpIf_eq_afterJump .overflow false _ s, jumpIf_eq_afterJump .overflow false _ s,
    spells_addr .js ⟨rfl, rfl, rfl⟩ rfl, spells_rb .js ⟨rfl, rfl, rfl⟩ rfl,
    jumpIf_eq_afterJump .sign true _ s, jumpIf_eq_afterJump .sign true _ s,
    spells_addr .jns ⟨rfl, rfl, rfl⟩ rfl, spells_rb .jns ⟨rfl, rfl, rfl⟩ rfl,
    jumpIf_eq_afterJump .sign false _ s, jumpIf_eq_afterJump .sign false _ s⟩

/-- Settles O46: both forms link the next address and jump to an address read before the link is written. -/
theorem callLinksAndJumps : Obligations.CallLinksAndJumps := by
  intro s rl rb addr
  refine ⟨?_, ?_, callTo_eq rl (addressMem addr) s, callTo_eq rl (addressInd rb s) s⟩
  · exact spells_of_row .call .memoryAddress ⟨rfl, rfl⟩ rfl (toNat_ofNat_RA rl) rfl
  · exact spells_of_row .call .registerIndirect ⟨rfl, rfl⟩ rfl (toNat_ofNat_RA rl) (toNat_ofNat_BV rb)

/-- Settles O47: a return jumps to what its register holds. -/
theorem retGoesToItsRegister : Obligations.RetGoesToItsRegister := by
  intro s rl
  refine ⟨?_, jumpTo_eq_afterJump (s.getReg rl) s⟩
  -- `RET` has no operand B, so its field `BV` is 0.
  rw [← Nat.add_zero (_ + _)]
  exact spells_of_row .ret .none ⟨rfl, rfl⟩ rfl (toNat_ofNat_RA rl) rfl

end Sys2Proof

/-! ## HALT and terminal statuses

The Word of `HALT` is the only one of its opcode (43_system.md R140), and a step in a terminal status changes nothing
(50_execution_engine.md R156). -/

namespace Sys2Proof

open Machine Claims

namespace Machine

/-- R156: `Halted` and `Faulted` are final for a step. -/
theorem step_eq_self_of_terminal {s : State} (h : terminal s.status = true) : step s = .next s :=
  if_pos h

/-- R140: `HALT` completes in every state, with the wrapping successor of `pc` and without `Running`. -/
theorem execHalt_eq (s : State) : execHalt s = .next { s with pc := s.pc + 1, status := .halted } := by
  rw [execHalt, State.halt, State.nextPc_eq]

end Machine

theorem eq_halt_of_opcode {i : Instr} (h : i.opcode = .halt) : i = .halt := by
  cases i
  case halt => rfl
  all_goals cases h

/-- R140: with the opcode of `HALT`, only the Word that is its encoding has legal operands. -/
theorem decode_eq_invalidOperand_of_halt {w : Word} (hop : fieldOP w = Opcode.halt.code) (hw : w ≠ encode .halt) :
    decode w = .error (.invalidOperand (fieldOP w)) := by
  refine decode_eq_invalidOperand hop ?_
  rintro ⟨i, hd, hi⟩
  rw [eq_halt_of_opcode hi] at hd
  exact hw (aLegalWordIsItsInstructionsOnlyEncoding w .halt hd)

/-- Settles O50: an instruction has one Word and `HALT` is its opcode's one instruction; the state it leaves is terminal,
and `reset()` makes every status `Ready`. -/
theorem haltAdvancesAndStops : Obligations.HaltAdvancesAndStops := by
  refine ⟨decode_encode .halt, fun w hop hw => ?_, fun s => ⟨execHalt_eq s, ?_, State.hostReset_status _⟩⟩
  · exact hop ▸ decode_eq_invalidOperand_of_halt hop hw
  · exact step_eq_self_of_terminal terminal_halted

end Sys2Proof

/-! ## The execution engine

The step as the decoded instruction, the table of `status` it follows, and the loop of `run` around it
(50_execution_engine.md R153 to R163). -/

namespace Sys2Proof

open Machine Claims

namespace Machine

/-! ### What an instruction does to `status` (R155) -/

section
variable {i : Instr} {s : State}

/-- R171: a data address outside memory is a fault. -/
theorem after_eq_raise_of_address_outside {ea : Word} (hea : dataAddress i s = some ea)
    (hout : s.memSize ≤ ea.toNat) : after i s = s.raise { reason := .memoryFault, info := ea } := by
  cases i <;> cases hea
  case loadMem => exact (after_loadMem ..).trans (if_neg hout.not_gt)
  case loadInd => exact (after_loadInd ..).trans (if_neg hout.not_gt)
  case storeMem => exact (after_storeMem ..).trans (if_neg hout.not_gt)
  case storeInd => exact (after_storeInd ..).trans (if_neg hout.not_gt)

/-- R174: a divisor of 0 is a fault. -/
theorem after_eq_raise_of_divisor_zero (hdiv : divisor i s = some 0) :
    after i s = s.raise { reason := .arithmeticFault, info := 0x19 } := by
  cases i
  case divReg => exact (after_divReg ..).trans (if_pos (Option.some.inj hdiv))
  case divImm => exact (after_divImm ..).trans (if_pos (Option.some.inj hdiv))
  all_goals cases hdiv

/-- R171, R174: the instruction meets neither of the faults above, which are all an instruction can take. -/
def MeetsNoFault (i : Instr) (s : State) : Prop :=
  (∀ ea, dataAddress i s = some ea → ea.toNat < s.memSize) ∧ divisor i s ≠ some 0

theorem meetsNoFault_halt (s : State) : MeetsNoFault .halt s := by
  simp [MeetsNoFault, dataAddress, divisor]

theorem after_eq_raise_of_not_meetsNoFault (h : ¬ MeetsNoFault i s) : ∃ f, after i s = s.raise f := by
  by_cases hdiv : divisor i s = some 0
  · exact ⟨_, after_eq_raise_of_divisor_zero hdiv⟩
  · simp only [MeetsNoFault, ne_eq, hdiv, not_false_eq_true, and_true, not_forall, not_lt] at h
    obtain ⟨ea, hea, hout⟩ := h
    exact ⟨_, after_eq_raise_of_address_outside hea hout⟩

/-- R155: an instruction that meets no fault completes, `HALT` in `Halted` and every other in `Running`. -/
theorem after_status_of_meetsNoFault (h : MeetsNoFault i s) :
    (after i s).status = if i = .halt then .halted else .running := by
  obtain ⟨hin, hdiv⟩ := h
  cases i
  case loadMem | loadInd | storeMem | storeInd => simp [hin _ rfl]
  case divReg => rw [after_divReg, if_neg fun h => hdiv (congrArg some h)]; rfl
  case divImm => rw [after_divImm, if_neg fun h => hdiv (congrArg some h)]; rfl
  case jzMem | jzInd | jnzMem | jnzInd | jcMem | jcInd | jncMem | jncInd | joMem | joInd | jnoMem | jnoInd
      | jsMem | jsInd | jnsMem | jnsInd => simp [apply_ite State.status]
  all_goals rfl

/-- R140, R155: `HALT` alone ends in `Halted`. -/
theorem after_status_eq_halted_iff : (after i s).status = .halted ↔ i = .halt := by
  by_cases h : MeetsNoFault i s
  · simp [after_status_of_meetsNoFault h]
  · obtain ⟨f, hf⟩ := after_eq_raise_of_not_meetsNoFault h
    have hi : i ≠ .halt := fun e => h (e ▸ meetsNoFault_halt s)
    simp [hf, hi]

/-- R155: every other instruction that completes ends in `Running`. -/
theorem after_status_eq_running_iff : (after i s).status = .running ↔ i ≠ .halt ∧ MeetsNoFault i s := by
  by_cases h : MeetsNoFault i s
  · simp [after_status_of_meetsNoFault h, h]
  · obtain ⟨f, hf⟩ := after_eq_raise_of_not_meetsNoFault h
    simp [hf, h]

/-- R155: no instruction ends in `Ready`. -/
theorem after_status_ne_ready (i : Instr) (s : State) : (after i s).status ≠ .ready := by
  rcases after_cases i s with ⟨f, hf⟩ | ⟨hst, -, -⟩
  · simp [hf]
  · rcases hst with hst | hst <;> simp [hst]

/-- R155, R176: every meaning writes `status` and none reads it. -/
theorem after_withStatus (i : Instr) (s : State) (st : Status) : after i { s with status := st } = after i s := by
  cases i
  case loadMem => rw [after_loadMem, after_loadMem]; rfl
  case loadInd => rw [after_loadInd, after_loadInd]; rfl
  case storeMem => rw [after_storeMem, after_storeMem]; rfl
  case storeInd => rw [after_storeInd, after_storeInd]; rfl
  case divReg => rw [after_divReg, after_divReg]; rfl
  case divImm => rw [after_divImm, after_divImm]; rfl
  all_goals rfl

end

/-! ### What a step does to `status` -/

section
variable {s t : State}

theorem terminal_eq_true {st : Status} : terminal st = true ↔ st = .halted ∨ ∃ r i, st = .faulted r i := by
  cases st <;> simp

/-- R172, R173: a step whose Word does not decode takes the decoder's fault. -/
theorem step_eq_raise_of_decode_error {d : DecodeFault} (ht : terminal s.status = false)
    (hp : s.pc.toNat < s.memSize) (hd : decode (s.mem.read s.pc.toNat) = .error d) :
    step s = .next (s.raise (decodeReport d)) := by
  simp [step, ht, State.fetch, memRead_inside hp, hd]

/-- A step outside a terminal status takes a fault before it has an instruction, or leaves the state of the instruction
it fetched. -/
theorem step_nonterminal_cases (ht : terminal s.status = false) :
    ((¬ ∃ i, s.pc.toNat < s.memSize ∧ decode (s.mem.read s.pc.toNat) = .ok i) ∧ ∃ f, step s = .next (s.raise f)) ∨
    ∃ i, s.pc.toNat < s.memSize ∧ decode (s.mem.read s.pc.toNat) = .ok i ∧ step s = .next (after i s) := by
  rcases step_cases s with ⟨hterm, -⟩ | ⟨-, hp, hs⟩ | ⟨-, -, d, hd, hs⟩ | ⟨-, hp, i, hd, hs⟩
  · simp [ht] at hterm
  · exact .inl ⟨fun ⟨_, hin, _⟩ => hp.not_gt hin, _, hs⟩
  · exact .inl ⟨fun ⟨_, _, hok⟩ => by simp [hd] at hok, _, hs⟩
  · exact .inr ⟨i, hp, hd, hs.trans (exec_eq_next i s)⟩

/-- Every step answers a next state. -/
theorem step_eq_next (s : State) : ∃ t, step s = .next t := by
  cases ht : terminal s.status with
  | true => exact ⟨s, step_eq_self_of_terminal ht⟩
  | false =>
    rcases step_nonterminal_cases ht with ⟨-, f, hs⟩ | ⟨i, -, -, hs⟩
    · exact ⟨_, hs⟩
    · exact ⟨_, hs⟩

/-- R155: the rows of the table that lead out of `Ready` and `Running`. -/
theorem step_status_nonterminal (ht : terminal s.status = false) (h : step s = .next t) :
    (t.status = .halted ↔ s.pc.toNat < s.memSize ∧ decode (s.mem.read s.pc.toNat) = .ok .halt) ∧
    (t.status = .running ↔
      s.pc.toNat < s.memSize ∧ ∃ i, decode (s.mem.read s.pc.toNat) = .ok i ∧ i ≠ .halt ∧ MeetsNoFault i s) ∧
    t.status ≠ .ready := by
  rcases step_nonterminal_cases ht with ⟨hno, f, hs⟩ | ⟨i, hp, hd, hs⟩ <;> cases hs.symm.trans h
  · have hrun (i : Instr) : ¬ (s.pc.toNat < s.memSize ∧ decode (s.mem.read s.pc.toNat) = .ok i) := fun hi => hno ⟨i, hi⟩
    refine ⟨by simp [hrun .halt], ?_, by simp⟩
    simp only [State.raise_status, reduceCtorEq, false_iff]
    rintro ⟨hp, i, hd, -⟩
    exact hrun i ⟨hp, hd⟩
  · refine ⟨?_, ?_, after_status_ne_ready i s⟩
    · simp [after_status_eq_halted_iff, hp, hd]
    · simp [after_status_eq_running_iff, hp, hd]

/-- R151, R155: of a status that is not terminal, a step asks nothing. -/
theorem step_withStatus {st : Status} (ht : terminal s.status = false) (hst : terminal st = false) :
    step { s with status := st } = step s := by
  rcases lt_or_ge s.pc.toNat s.memSize with hp | hp
  · cases hd : decode (s.mem.read s.pc.toNat) with
    | error d =>
      rw [step_eq_raise_of_decode_error ht hp hd]
      exact step_eq_raise_of_decode_error (s := { s with status := st }) hst hp hd
    | ok i =>
      rw [step_eq_exec ht hp hd, exec_eq_next, ← after_withStatus i s st, ← exec_eq_next]
      exact step_eq_exec (s := { s with status := st }) hst hp hd
  · rw [step_eq_raise_of_fetch_outside ht hp]
    exact step_eq_raise_of_fetch_outside (s := { s with status := st }) hst hp

end

/-! ### Placing an instruction -/

theorem State.withFetchWord_not_terminal (s : State) (nbits w : Nat) :
    terminal (s.withFetchWord nbits w).status = false := by
  cases h : terminal s.status <;> simp [State.withFetchWord, h]

theorem State.withFetchWord_pc_inside (s : State) (nbits w : Nat) :
    (s.withFetchWord nbits w).pc.toNat < (s.withFetchWord nbits w).memSize :=
  Nat.lt_of_lt_of_le (Nat.lt_succ_self _) (le_max_right _ _)

theorem State.withFetchWord_read_pc (s : State) (w : Word) :
    (s.withFetchWord 32 w.toNat).mem.read (s.withFetchWord 32 w.toNat).pc.toNat = w := by
  simp [State.withFetchWord, Memory.read_write_same, Nat.mod_eq_of_lt w.isLt]

/-! ### The loop of `run` (R158) -/

theorem terminalResult_eq_none_iff {st : Status} : terminalResult st = none ↔ terminal st = false := by
  cases st <;> simp [terminalResult]

theorem run_of_terminalResult {s : State} {result : RunResult} (h : terminalResult s.status = some result) (n : Nat) :
    run n s = .next { result := result, steps := 0, final := s } := by
  cases n <;> simp [run, h]

theorem run_zero (s : State) :
    run 0 s = .next { result := (terminalResult s.status).getD .stepLimitReached, steps := 0, final := s } := rfl

theorem run_succ {s t : State} (ht : terminal s.status = false) (hs : step s = .next t) (n : Nat) :
    run (n + 1) s = countStep (run n t) := by
  simp [run, terminalResult_eq_none_iff.2 ht, hs]

/-- R160: a run's report after one step more is the report of the rest, with that step counted. -/
theorem countStep_eq_next_iff {o : Host.Outcome RunReport Fault Refusal} {r : RunReport} :
    countStep o = .next r ↔ ∃ q, o = .next q ∧ r = { q with steps := q.steps + 1 } := by
  cases o <;> simp [countStep, eq_comm]

/-- R158, R160, R166: a run returns within its budget, reports its final status, and has used its whole budget unless
that status is terminal. -/
theorem run_returns (n : Nat) (s : State) : ∃ r, run n s = .next r ∧ r.steps ≤ n ∧
    r.result = (terminalResult r.final.status).getD .stepLimitReached ∧
    (terminal r.final.status = false → r.steps = n) := by
  induction n generalizing s with
  | zero => exact ⟨_, run_zero s, le_rfl, rfl, fun _ => rfl⟩
  | succ n ih =>
    cases hres : terminalResult s.status with
    | some result =>
      refine ⟨_, run_of_terminalResult hres _, Nat.zero_le _, by simp [hres], fun hterm => ?_⟩
      simp [terminalResult_eq_none_iff.2 hterm] at hres
    | none =>
      obtain ⟨t, hs⟩ := step_eq_next s
      obtain ⟨r, hr, hsteps, hresult, hall⟩ := ih t
      refine ⟨{ r with steps := r.steps + 1 }, ?_, Nat.succ_le_succ hsteps, hresult, fun hterm => ?_⟩
      · rw [run_succ (terminalResult_eq_none_iff.1 hres) hs, hr, countStep]
      · exact congrArg (· + 1) (hall hterm)

end Machine

/-! ### The statements about the engine -/

/-- Settles O11: the table outside the terminal statuses, that a step keeps those, and that a load writes memory alone. -/
theorem statusMovesByTheTable : Obligations.StatusMovesByTheTable := by
  intro s
  obtain ⟨t, h⟩ := step_eq_next s
  refine ⟨t, h, fun hterm => ?_, fun hready => ?_, s.hostReset_status, fun base words u hl => ?_⟩
  · rw [step_eq_self_of_terminal (terminal_eq_true.2 hterm)] at h
    cases h
    rfl
  · obtain ⟨hhalted, hrunning, hne⟩ := step_status_nonterminal (terminal_eq_false.2 hready) h
    refine ⟨hhalted, hrunning, ?_⟩
    cases hst : t.status with
    | ready => exact absurd hst hne
    | running | halted | faulted => simp
  · obtain ⟨-, -, rfl⟩ := loadProgram_eq_next_iff.1 hl
    rfl

/-- Settles O12: a step asks of its status only that it is not terminal. -/
theorem readyAndRunningStepAlike : Obligations.ReadyAndRunningStepAlike := fun s =>
  step_withStatus (s := { s with status := .running }) terminal_running terminal_ready

/-- Settles O52: the report is the final status, as the induction over the budget gives it. -/
theorem runReportsHowItEnded : Obligations.RunReportsHowItEnded := by
  intro n s
  obtain ⟨r, hr, hsteps, hresult, hall⟩ := run_returns n s
  refine ⟨r, hr, hsteps, ?_⟩
  rw [hresult]
  cases hst : r.final.status with
  | ready | running => simpa [terminalResult, hst] using hall
  | halted | faulted => simp [terminalResult]

/-- Settles O53: by induction over the first budget; the report without a step is the empty run's. -/
theorem runIsResumable : Obligations.RunIsResumable := by
  intro m n s t r hm hn
  induction m generalizing s with
  | zero =>
    simp only [run_zero, Host.Outcome.next.injEq, RunReport.mk.injEq] at hm
    obtain ⟨-, -, rfl⟩ := hm
    simpa using hn
  | succ m ih =>
    cases hres : terminalResult s.status with
    | some result => simp [run_of_terminalResult hres] at hm
    | none =>
      have ht := terminalResult_eq_none_iff.1 hres
      obtain ⟨u, hs⟩ := step_eq_next s
      rw [run_succ ht hs] at hm
      obtain ⟨⟨_, _, _⟩, hu, heq⟩ := countStep_eq_next_iff.1 hm
      cases heq
      rw [Nat.add_right_comm, run_succ ht hs, ih u hu, countStep, Nat.add_right_comm]

/-- Settles O7: the step fetches and decodes the Word, and its meaning is all that follows. -/
theorem stepRunsTheDecodedInstruction : Obligations.StepRunsTheDecodedInstruction := fun _ _ ht hp hd =>
  step_eq_exec ht hp hd

/-- Settles O10: the terminal test comes before everything else. -/
theorem terminalStatesAreSticky : Obligations.TerminalStatesAreSticky := by
  intro s hterm
  have hs := step_eq_self_of_terminal (terminal_eq_true.2 hterm)
  exact ⟨hs, by rw [stepReturns, hs]⟩

/-- Settles O51: the tests of the loop in their order. -/
theorem runFollowsItsLoop : Obligations.RunFollowsItsLoop := by
  intro n s
  refine ⟨fun hst => ?_, fun r i hst => ?_, fun ht => ?_, fun ht t r hs hr => ?_⟩
  · exact run_of_terminalResult (by rw [hst, terminalResult]) n
  · exact run_of_terminalResult (by rw [hst, terminalResult]) n
  · rw [run_zero, terminalResult_eq_none_iff.2 ht, Option.getD_none]
  · rw [run_succ ht hs, hr, countStep]

/-- Settles O56: the placed Word is at `pc`, inside memory, in no terminal status, and decodes to the instruction. -/
theorem withFetchWordRunsTheInstruction : Obligations.WithFetchWordRunsTheInstruction := by
  intro s i
  refine step_eq_exec (s.withFetchWord_not_terminal ..) (s.withFetchWord_pc_inside ..) ?_
  rw [s.withFetchWord_read_pc, decode_encode]

/-- Settles O57: the load's first test. -/
theorem loadWhileRunningIsRefused : Obligations.LoadWhileRunningIsRefused := fun _ _ _ hrun => if_pos hrun

end Sys2Proof

/-! ## Faults

When a step faults and what it records, one condition for each reason, and that nothing but `status` shows it
(60_exceptions.md R171 to R178). -/

namespace Sys2Proof

open Machine Claims

namespace Machine

section
variable {i : Instr} {s t : State} {r : FaultReason} {info : Word}

/-- R171, R174: the faults an instruction can take, each with its reason, its `info` and when it is taken. -/
theorem after_status_eq_faulted_iff : (after i s).status = .faulted r info ↔
    (r = .memoryFault ∧ s.memSize ≤ info.toNat ∧ dataAddress i s = some info) ∨
    (r = .arithmeticFault ∧ info = 0x19 ∧ divisor i s = some 0) := by
  constructor
  · intro hf
    by_cases hdiv : divisor i s = some 0
    · rw [after_eq_raise_of_divisor_zero hdiv] at hf
      cases hf
      exact .inr ⟨rfl, rfl, hdiv⟩
    · by_cases hin : ∀ ea, dataAddress i s = some ea → ea.toNat < s.memSize
      · rw [after_status_of_meetsNoFault ⟨hin, hdiv⟩] at hf
        split at hf <;> cases hf
      · simp only [not_forall, not_lt] at hin
        obtain ⟨ea, hea, hout⟩ := hin
        rw [after_eq_raise_of_address_outside hea hout] at hf
        cases hf
        exact .inl ⟨rfl, hout, hea⟩
  · rintro (⟨rfl, hout, hea⟩ | ⟨rfl, rfl, hdiv⟩)
    · rw [after_eq_raise_of_address_outside hea hout, State.raise_status]
    · rw [after_eq_raise_of_divisor_zero hdiv, State.raise_status]

/-- R172, R173: what a decode fault records is neither an access nor a division. -/
@[simp] theorem decodeReport_reason_ne (d : DecodeFault) :
    (decodeReport d).reason ≠ .memoryFault ∧ (decodeReport d).reason ≠ .arithmeticFault := by
  cases d <;> simp [decodeReport]

/-- R178: the three places a step can fault at, in their order: fetch, decode, execute. -/
theorem step_status_eq_faulted_iff (ht : terminal s.status = false) (h : step s = .next t) :
    t.status = .faulted r info ↔
      (s.memSize ≤ s.pc.toNat ∧ r = .memoryFault ∧ info = s.pc) ∨
      (s.pc.toNat < s.memSize ∧ ∃ d, decode (s.mem.read s.pc.toNat) = .error d ∧
        (decodeReport d).reason = r ∧ (decodeReport d).info = info) ∨
      (s.pc.toNat < s.memSize ∧ ∃ i, decode (s.mem.read s.pc.toNat) = .ok i ∧
        (after i s).status = .faulted r info) := by
  rcases lt_or_ge s.pc.toNat s.memSize with hp | hp
  · cases hd : decode (s.mem.read s.pc.toNat) with
    | error d =>
      cases (step_eq_raise_of_decode_error ht hp hd).symm.trans h
      simp [hp, hp.not_ge]
    | ok i =>
      rw [step_eq_exec ht hp hd] at h
      simp [exec_eq_next_iff.1 h, hp, hp.not_ge]
  · cases (step_eq_raise_of_fetch_outside ht hp).symm.trans h
    simp [hp, hp.not_gt, eq_comm]

/-- R176: a step that ends in `Faulted` has changed nothing but `status`. -/
theorem eq_afterFault_of_step_faulted (ht : terminal s.status = false) (h : step s = .next t)
    (hf : t.status = .faulted r info) : t = afterFault s r info := by
  have hraise : ∃ f, t = s.raise f := by
    rcases step_nonterminal_cases ht with ⟨-, f, hs⟩ | ⟨i, hp, hd, -⟩
    · exact ⟨f, Host.Outcome.next.inj (h.symm.trans hs)⟩
    · exact eq_raise_of_exec_faulted (step_eq_exec ht hp hd ▸ h) hf
  obtain ⟨f, rfl⟩ := hraise
  cases hf
  rfl

end

end Machine

/-! ### The statements about faults -/

/-- Settles O9: the decoder's answer is the step's fault, and the step reports the opcode field it answers with. -/
theorem undecodableWordsFaultWithTheirOpcode : Obligations.UndecodableWordsFaultWithTheirOpcode := by
  intro s ht hp
  obtain ⟨hopcode, hoperand⟩ := decoderFollowsItsTests (s.mem.read s.pc.toNat)
  exact ⟨fun hno => step_eq_raise_of_decode_error ht hp (hopcode hno),
    fun o ho hfail => step_eq_raise_of_decode_error ht hp ((hoperand o ho).1 hfail)⟩

/-- Settles O13: fault entry writes `status` alone, and the run's next terminal test reports it. -/
theorem faultsAreClean : Obligations.FaultsAreClean := by
  intro s t r info ht h hf
  refine ⟨eq_afterFault_of_step_faulted ht h hf, by rw [stepReturns, h, ← hf], fun n => ?_⟩
  rw [run_succ ht h, run_of_terminalResult (by rw [hf, terminalResult]), countStep]

/-- Settles O14: of the places a step can fault at, the fetch and the data access raise a `MemoryFault`; a data address
outside memory is not a `pc` inside it. -/
theorem memoryFaultsNameTheirAccess : Obligations.MemoryFaultsNameTheirAccess := by
  intro s t info ht h
  have hiff : t.status = .faulted .memoryFault info ↔ (s.memSize ≤ s.pc.toNat ∧ info = s.pc) ∨
      (s.pc.toNat < s.memSize ∧ s.memSize ≤ info.toNat ∧
        ∃ i, decode (s.mem.read s.pc.toNat) = .ok i ∧ dataAddress i s = some info) := by
    simp [step_status_eq_faulted_iff ht h, after_status_eq_faulted_iff, and_left_comm]
  refine ⟨hiff, fun hf => ?_⟩
  rcases hiff.1 hf with ⟨hp, hinfo⟩ | ⟨hp, hout, -⟩
  · exact iff_of_true hinfo hp
  · exact iff_of_false (fun hinfo => (hinfo ▸ hout).not_gt hp) hp.not_ge

/-- Settles O15: of the places a step can fault at, only a `DIV` raises an `ArithmeticFault`. -/
theorem arithmeticFaultIsDivisionByZero : Obligations.ArithmeticFaultIsDivisionByZero := by
  intro s t info ht h
  simp [step_status_eq_faulted_iff ht h, after_status_eq_faulted_iff, and_left_comm]

end Sys2Proof

/-! ## Reset and hazards

What the host's `reset()` does (70_reset_and_hazards.md). It leaves memory as it is (R201), and it is the only way out of a
terminal status. -/

namespace Sys2Proof

open Machine

namespace Machine

/-- R156, R158: a run from a terminal status ends in the state it began in, as every step there does nothing. -/
theorem run_final_of_terminal {s : State} (ht : terminal s.status = true) {n : Nat} {r : RunReport}
    (h : run n s = .next r) : r.final = s := by
  refine run_preserves (P := (· = s)) (fun {u v} hu hv => ?_) rfl h
  subst hu
  exact (Host.Outcome.next.inj ((step_eq_self_of_terminal ht).symm.trans hv)).symm

/-- R40: a load that succeeds leaves `status` as it is. -/
theorem loadProgram_status {base : Nat} {words : List Word} {s t : State} (h : loadProgram base words s = .next t) :
    t.status = s.status := by
  obtain ⟨-, -, rfl⟩ := loadProgram_eq_next_iff.1 h
  rfl

end Machine

/-! ### The statements about reset -/

/-- Settles O24: the reset field by field; in a terminal status a step does nothing, hence a run does nothing, and a load
writes memory alone. -/
theorem resetZeroesAllButMemory : Obligations.ResetZeroesAllButMemory := fun s =>
  ⟨s.getReg_hostReset, s.hostReset_pc, s.hostReset_flags, s.hostReset_status, s.hostReset_memSize,
    fun a => congrArg (·.read a) s.hostReset_mem,
    fun ht => ⟨step_eq_self_of_terminal ht, fun _ _ => run_final_of_terminal ht, fun _ _ _ => loadProgram_status⟩⟩

/-- Settles O25: the two fields a reset keeps are the parameters, and it sets the others as power-on does. -/
theorem powerOnIsResetWithInitMem : Obligations.PowerOnIsResetWithInitMem := by
  intro c s hsize hmem
  rw [State.powerOn, State.hostReset, hsize, hmem]

/-- Settles O55: a load asks of the state only `MEM_SIZE`, which a reset keeps, and that `status` is not `Running`, which it
is not after a reset; and a load writes memory alone, which a reset leaves as it is. -/
theorem resetAndLoadCommute : Obligations.ResetAndLoadCommute := by
  intro base words s t h
  obtain ⟨-, hin, rfl⟩ := loadProgram_eq_next_iff.1 h
  have hready : s.hostReset.status ≠ .running := by simp
  exact loadProgram_eq_next_iff.2 ⟨hready, hin, rfl⟩

end Sys2Proof
